-- ==== Sys2Proof/Word.lean ====
section
/-! DEFINITION. The two data units of the block: a 32-bit register word (R20, D2) and an 8-bit
channel value or code unit (R9, R35, R38). All codec arithmetic is on `Nat` (R12, D16). -/

namespace Sys2Proof

/-- A control register's content, a command word, or an address on the host port (R20, R50, R80). -/
abbrev Word := BitVec 32

/-- One channel of a pixel or one code unit of a payload (R35, R38). -/
abbrev Byte := BitVec 8

end Sys2Proof
end

