-- ==== Sys2Proof/Syntax.lean ====
section
/-! DEFINITION. The command words as syntax: one constructor per row of spec/opcode_table.json
(R80, R81, R89). No legal command word carries an operand (R83); an illegal one keeps its two
fields, so that no bit of the word is lost. -/

namespace Sys2Proof

/-- A command word written to CMD, by its row of the opcode table. -/
inductive Instr where
  /-- 0x00000000 (R81, R165). -/
  | nop
  /-- 0x00000001 (R81, R104). -/
  | encode
  /-- 0x00000002 (R81, R130). -/
  | decode
  /-- Any other word (R82, R89, R166): `opc` is bits 7:0, `mbz` is bits 31:8. -/
  | illegal (opc : BitVec 8) (mbz : BitVec 24)
  deriving DecidableEq, Repr

end Sys2Proof
end

