-- ==== Sys2Proof/WellFormed.lean ====
section
/-! DEFINITION. Which terms of `Instr` stand for a command word of their own row: an `illegal` term
must not spell one of the three legal words (R81, R82, R89). -/

namespace Sys2Proof

/-- The well-formedness check. A zero MBZ field makes the word legal exactly for OPC 0, 1 and 2
(R81); every other pair of fields is an illegal word (R89). -/
def Instr.wf : Instr → Bool
  | .nop => true
  | .encode => true
  | .decode => true
  | .illegal opc mbz => !(mbz == 0 && (opc == 0 || opc == 1 || opc == 2))

end Sys2Proof
end

