-- ==== Sys2Proof/Decode.lean ====
section
/-! DEFINITION. The command word format CMD (R80), its total decoder (R82) and the encoder written
from the same table (R81). -/

namespace Sys2Proof

/-- One legal row of the opcode table: the word `w` is this command when `w & mask = pattern` (R82). -/
structure OpRow where
  mask : Word
  pattern : Word
  instr : Instr
  deriving DecidableEq, Repr

/-- The three legal rows (R81); each has mask 0xFFFFFFFF, an exact match on all 32 bits (R82). -/
def opRows : List OpRow :=
  [ ⟨0xFFFFFFFF#32, 0x00000000#32, .nop⟩,
    ⟨0xFFFFFFFF#32, 0x00000001#32, .encode⟩,
    ⟨0xFFFFFFFF#32, 0x00000002#32, .decode⟩ ]

/-- Whether a word falls under a row. -/
def OpRow.fits (r : OpRow) (w : Word) : Bool := (w &&& r.mask) == r.pattern

/-- The OPC field, bits 7:0 (R80). -/
def opcField (w : Word) : BitVec 8 := w.extractLsb' 0 8

/-- The MBZ field, bits 31:8 (R80). -/
def mbzField (w : Word) : BitVec 24 := w.extractLsb' 8 24

/-- The decoder (R82): total, every 32-bit word has exactly one meaning, and every word outside the
three legal rows is an illegal command (R89). -/
def decodeWord (w : Word) : Instr :=
  match opRows.find? (fun r => r.fits w) with
  | some r => r.instr
  | none => .illegal (opcField w) (mbzField w)

/-- Why a bit string is not a command word at all. -/
inductive DecodeError where
  /-- More than 32 bits: every command is exactly one 32-bit word (R80, R90). -/
  | longerThanOneWord
  /-- A bit is set above the stated width. -/
  | bitsAboveWidth
  deriving DecidableEq, Repr

/-- Decoding a string of `nbits` bits given as a number. Only 32-bit words have a decoding in the spec
(R80, R82, R90). That a shorter string is extended with zero bits to 32, and that a longer one or a number
with a bit above its width is rejected, is the model's choice (DESIGN CHOICE, log entry 18). -/
def decodeBits (nbits w : Nat) : Except DecodeError Instr :=
  if nbits > 32 then .error .longerThanOneWord
  else if w ≥ 2 ^ nbits then .error .bitsAboveWidth
  else .ok (decodeWord (BitVec.ofNat 32 w))

/-- The decoder on an opcode-table row's bits, numbered as the table numbers them. -/
def decodeTableWord (nbits w : Nat) : Option Instr :=
  match decodeBits nbits w with
  | .ok i => some i
  | .error _ => none

/-- The encoder (R80, R81): the word of a command. -/
def encodeInstr : Instr → Word
  | .nop => 0x00000000#32
  | .encode => 0x00000001#32
  | .decode => 0x00000002#32
  | .illegal opc mbz => mbz ++ opc

/-- The words of an instruction, in order: always exactly one (R80, R90). -/
def encode (i : Instr) : List Word := [encodeInstr i]

end Sys2Proof
end

