-- ==== Sys2Proof/Config.lean ====
section
/-! DEFINITION. What an implementation fixes (R10) and the free values of the spec. The free values
are opaque constants: nothing in Lean can evaluate one or prove a value of one. -/

namespace Sys2Proof

/-- UNINIT_POLICY (R10, R203): what a read of a never-written buffer byte gives. -/
inductive UninitPolicy where
  /-- The read is a model fault (the recommended policy). -/
  | fault
  /-- The read returns an arbitrary byte, drawn afresh for each read. -/
  | anyValue
  deriving DecidableEq, Repr, Inhabited

/-- The implementation parameters the model takes as arguments (R10). They are fixed for a block
(R44). -/
structure Params where
  /-- PIX_CAP: how many pixels the pixel memory holds. -/
  pixCap : Word
  /-- MSG_CAP: how many bytes the message buffer holds. -/
  msgCap : Word
  /-- UNINIT_POLICY. -/
  uninit : UninitPolicy
  deriving DecidableEq, Repr

/-- The constraints of R10. The upper bounds 2^32 − 1 hold by the width of `Word`. -/
def Params.ok (p : Params) : Bool :=
  decide (1 ≤ p.pixCap.toNat) && decide (3 * p.pixCap.toNat / 8 ≤ p.msgCap.toNat)

/-- The implementer's PIX_CAP before R10's lower bound is applied. -/
opaque Config.pixCapChoice : Word
/-- The implementer's MSG_CAP before R10's lower bound is applied. -/
opaque Config.msgCapChoice : Word
/-- The implementer's UNINIT_POLICY (R10). -/
opaque Config.uninitChoice : UninitPolicy

/-- PIX_CAP of the block that `State.reset` describes: any value with 1 ≤ PIX_CAP ≤ 2^32 − 1. -/
def Config.pixCap : Word :=
  if Config.pixCapChoice = 0 then 1 else Config.pixCapChoice

/-- MSG_CAP of that block: any value with floor(3 × PIX_CAP / 8) ≤ MSG_CAP ≤ 2^32 − 1. -/
def Config.msgCap : Word :=
  if Config.msgCapChoice.toNat < 3 * Config.pixCap.toNat / 8
  then BitVec.ofNat 32 (3 * Config.pixCap.toNat / 8) else Config.msgCapChoice

/-- The parameters of the block that `State.reset` describes: every choice R10 allows. -/
def Config.params : Params where
  pixCap := Config.pixCap
  msgCap := Config.msgCap
  uninit := Config.uninitChoice

/-- Free value: the byte the n-th draw gives for a read of an uninitialised byte under
UNINIT_POLICY = any value (R203). -/
opaque Config.uninitByte : Nat → Byte

/-- Free value DECODE_SCRATCH (R10, R141): what MSGBUF byte `a` holds after the DECODE whose draw is
`n`, where that DECODE did not write it. -/
opaque Config.decodeScratch (n a : Nat) : Byte

/-- Free value: how many turns the host gets between the acceptance whose draw is `n` and that
command's completion step. It is unspecified and finite (R8, R167, R215). -/
opaque Config.latency : Nat → Nat

end Sys2Proof
end

