-- ==== Sys2Proof/Machine/State.lean ====
section
/-! DEFINITION. The state of the block and of its two agents (R2, R167), as plain data: the control
registers (R20), the two memories (R35, R38), the command in flight (R40), the host's events still
to come and the responses it received (R54, R168), and the model's own two counters. -/

namespace Sys2Proof.Machine

/-- The two byte memories, each an address space of its own (R50). -/
inductive Space where
  /-- PIX: PIXMEM (R35). -/
  | pix
  /-- MSG: MSGBUF (R38). -/
  | msg
  deriving DecidableEq, Repr

/-- A command the engine runs (R40). -/
inductive Command where
  | encode
  | decode
  deriving DecidableEq, Repr

/-- The values of STATUS.RESULT that are ever written (R26, R170). -/
inductive ResultCode where
  | none
  | ok
  | notFound
  | capacityExceeded
  | illegalCommand
  | badConfig
  deriving DecidableEq, Repr

/-- The eight control registers (R20). -/
inductive Reg where
  | cmd
  | status
  | npix
  | msglen
  | reslen
  | maxchars
  | pixcap
  | msgcap
  deriving DecidableEq, Repr

/-- What the bytes of a memory that are not listed hold. -/
inductive Fill where
  /-- Nothing the spec gives: the byte is uninitialised (R201 to R203). -/
  | uninit
  /-- The free value of the DECODE whose draw is `n` (R141). -/
  | scratch (n : Nat)
  deriving DecidableEq, Repr

/-- A byte memory: the bytes known to have been written, by rising address, and what every other byte
holds. -/
structure Memory where
  fill : Fill
  cells : List Host.Cell
  deriving DecidableEq, Repr

/-- The six host transactions (R15, R51 to R53); each space has a 32-bit address (R50). -/
inductive Transaction where
  | regRead (r : Word)
  | regWrite (r v : Word)
  | pixRead (a : Word)
  | pixWrite (a : Word) (v : Byte)
  | msgRead (a : Word)
  | msgWrite (a : Word) (v : Byte)
  deriving DecidableEq, Repr

/-- The kinds of host-port error (R54). -/
inductive ErrKind where
  | range
  | busy
  | readOnly
  deriving DecidableEq, Repr

/-- The response of a host transaction (R54). A byte read answers the byte, zero-extended. -/
inductive Response where
  | ok (v : Word)
  | err (k : ErrKind)
  deriving DecidableEq, Repr

/-- A response as the host received it. -/
structure Received where
  response : Response
  /-- A poll of `wait` that read BUSY = 1 and is repeated (R92). A run's observation does not count these
  (R168). -/
  repeated : Bool
  deriving DecidableEq, Repr

/-- What the outside world can do next: a transaction, one of the two pseudo-instructions whose
length depends on a response (R92, R95), or a reset (R200 to R202). -/
inductive HostEvent where
  | transaction (t : Transaction)
  | wait
  | getmsg
  | powerOnReset
  | warmReset
  deriving DecidableEq, Repr

/-- Why a run stops with a fault. -/
inductive Fault where
  /-- Raised by every read of an uninitialised byte, by the host (PixRead, MsgRead) or by the engine
  (ENCODE, DECODE), under UNINIT_POLICY = fault: the spec's own model fault (R203). Safe. -/
  | uninitialisedRead (sp : Space) (a : Nat)
  /-- Raised by an engine access to an address that does not exist (R50, R56). By R77 no run reaches
  one; it can arise only in states where a command is in flight that was never accepted. Safe. -/
  | addressOutOfRange (sp : Space) (a : Nat)
  deriving DecidableEq, Repr

/-- Why an instruction has no meaning in the model. -/
inductive Refusal where
  /-- Raised by an arm of `exec` whose instruction has no meaning yet (there is none). Safe. -/
  | notModelled (mnemonic : String)
  deriving DecidableEq, Repr

/-- The whole state. -/
structure State where
  /-- The implementation parameters (R10), which the registers PIXCAP and MSGCAP read (R32, R33).
  No step changes them (R44). -/
  params : Params
  /-- STATUS (R24). -/
  status : Word
  /-- NPIX (R28). -/
  npix : Word
  /-- MSGLEN (R29). -/
  msglen : Word
  /-- RESLEN (R30). -/
  reslen : Word
  /-- MAXCHARS (R31). -/
  maxchars : Word
  /-- The in-flight command (R40). -/
  pending : Option Command
  /-- PIXMEM (R35). -/
  pix : Memory
  /-- MSGBUF (R38). -/
  msg : Memory
  /-- The model's own: turns the host still gets before the command in flight completes (R215). -/
  delay : Nat
  /-- The model's own: how many free values have been drawn. -/
  draws : Nat
  /-- The events the outside world has still to perform, in order (R167). -/
  host : List HostEvent
  /-- The responses the host has received, oldest first (R54, R168). -/
  responses : List Received
  deriving DecidableEq, Repr

/-- The machine right after power-on reset (R200, R201, R204): registers 0, nothing in flight, every
byte of both memories uninitialised. -/
def State.reset : State where
  params := Config.params
  status := 0
  npix := 0
  msglen := 0
  reslen := 0
  maxchars := 0
  pending := none
  pix := ⟨.uninit, []⟩
  msg := ⟨.uninit, []⟩
  delay := 0
  draws := 0
  host := []
  responses := []

end Sys2Proof.Machine
end

