-- ==== Sys2Proof/Machine/Flags.lean ====
section
/-! DEFINITION. The fields of STATUS (R24 to R27), the block's only flags (R42). -/

namespace Sys2Proof.Machine

/-- The code of an outcome in STATUS.RESULT (R26, R170). -/
def ResultCode.code : ResultCode → BitVec 4
  | .none => 0
  | .ok => 1
  | .notFound => 2
  | .capacityExceeded => 3
  | .illegalCommand => 4
  | .badConfig => 5

/-- STATUS.BUSY, bit 0 (R25). -/
def busyBit (st : Word) : Bool := st.getLsbD 0

/-- STATUS.RESULT, bits 7:4 (R26). -/
def resultField (st : Word) : BitVec 4 := st.extractLsb' 4 4

/-- The reserved bits of STATUS, 3:1 and 31:8 (R24, R27). -/
def reservedBits (st : Word) : Word := st &&& 0xFFFFFF0E#32

/-- Writing STATUS.BUSY and nothing else of STATUS. -/
def withBusy (b : Bool) (st : Word) : Word :=
  (st &&& 0xFFFFFFFE#32) ||| (if b then 1#32 else 0#32)

/-- Writing STATUS.RESULT and nothing else of STATUS. -/
def withResult (c : ResultCode) (st : Word) : Word :=
  (st &&& 0xFFFFFF0F#32) ||| (c.code.setWidth 32 <<< 4)

/-- STATUS.BUSY of a state. -/
def State.busy (s : State) : Bool := busyBit s.status

/-- STATUS.RESULT of a state. -/
def State.result (s : State) : BitVec 4 := resultField s.status

end Sys2Proof.Machine
end

