-- ==== Sys2Proof/Machine/Ops.lean ====
section
/-! DEFINITION. The shared operations: a byte memory in its canonical form, the engine's and the
host's access to one byte (R14, R55, R203), and the life of a command: configuration check,
acceptance, rejection and completion (R161 to R163). Completion is also what the spec writes as
`raise` (R14): the block has no trap mechanism (R185). -/

namespace Sys2Proof.Machine

/-! ### A byte memory -/

/-- The byte listed for address `a`. -/
def lookupCell (a : Nat) : List Host.Cell → Option Byte
  | [] => none
  | (b, v) :: rest => if a = b then some v else lookupCell a rest

/-- Lists byte `v` for address `a`, keeping the addresses rising. -/
def insertCell (a : Nat) (v : Byte) : List Host.Cell → List Host.Cell
  | [] => [(a, v)]
  | (b, w) :: rest =>
    if a < b then (a, v) :: (b, w) :: rest
    else if a = b then (a, v) :: rest
    else (b, w) :: insertCell a v rest

/-- What an address that is not listed reads as: no value while uninitialised (R201 to R203), the
free value of the last DECODE otherwise (R141). -/
def Fill.byteAt (f : Fill) (a : Nat) : Option Byte :=
  match f with
  | .uninit => none
  | .scratch n => some (Config.decodeScratch n a)

/-- The byte a memory holds at `a`, or `none` where it is uninitialised. -/
def Memory.get (m : Memory) (a : Nat) : Option Byte :=
  match lookupCell a m.cells with
  | some v => some v
  | none => m.fill.byteAt a

/-- Writing one byte (R66, R203). -/
def Memory.set (m : Memory) (a : Nat) (v : Byte) : Memory :=
  { m with cells := insertCell a v m.cells }

/-- The canonical form: listed addresses strictly rising. A listed byte is never what an unlisted
address holds (no value, or a free value by its number), so equal contents are equal data. -/
abbrev Memory.wf (m : Memory) : Prop := m.cells.Pairwise (fun x y => x.1 < y.1)

/-- Every listed address lies below `n`. -/
abbrev Memory.below (m : Memory) (n : Nat) : Prop := ∀ c ∈ m.cells, c.1 < n

/-- Makes the bytes at addresses 0 to `n − 1` unlisted (R202). -/
def Memory.forgetBelow (m : Memory) (n : Nat) : Memory :=
  { m with cells := m.cells.filter (fun c => decide (n ≤ c.1)) }

/-- A memory of which no byte has been written (R201). -/
def Memory.blank : Memory := ⟨.uninit, []⟩

/-- A memory every byte of which holds the free value of draw `n` (R141). -/
def Memory.scratch (n : Nat) : Memory := ⟨.scratch n, []⟩

/-! ### Access to a byte of state -/

/-- The memory of a space (R50). -/
def State.mem (s : State) : Space → Memory
  | .pix => s.pix
  | .msg => s.msg

/-- Replaces the memory of a space. -/
def State.withMem (s : State) (sp : Space) (m : Memory) : State :=
  match sp with
  | .pix => { s with pix := m }
  | .msg => { s with msg := m }

/-- How many addresses a space has: 3 × PIX_CAP in PIX, MSG_CAP in MSG (R35, R38, R50). -/
def State.extent (s : State) : Space → Nat
  | .pix => 3 * s.params.pixCap.toNat
  | .msg => s.params.msgCap.toNat

/-- `MemRead(space, a, 1)` (R14, R55). An uninitialised byte follows UNINIT_POLICY (R203): a fault,
or a free value drawn for this read. -/
def memRead (sp : Space) (a : Nat) (s : State) : Except Fault (Byte × State) :=
  if a < s.extent sp then
    match (s.mem sp).get a with
    | some v => .ok (v, s)
    | none =>
      match s.params.uninit with
      | .fault => .error (.uninitialisedRead sp a)
      | .anyValue => .ok (Config.uninitByte s.draws, { s with draws := s.draws + 1 })
  else .error (.addressOutOfRange sp a)

/-- `MemWrite(space, a, 1, v)` (R14, R55). -/
def memWrite (sp : Space) (a : Nat) (v : Byte) (s : State) : Except Fault State :=
  if a < s.extent sp then .ok (s.withMem sp ((s.mem sp).set a v))
  else .error (.addressOutOfRange sp a)

/-- Reads `n` bytes from address `a` on. -/
def readBytes (sp : Space) : (n a : Nat) → State → Except Fault (List Byte × State)
  | 0, _, s => .ok ([], s)
  | n + 1, a, s =>
    match memRead sp a s with
    | .error f => .error f
    | .ok (v, s1) =>
      match readBytes sp n (a + 1) s1 with
      | .error f => .error f
      | .ok (vs, s2) => .ok (v :: vs, s2)

/-- Writes the bytes of a list from address `a` on. -/
def writeBytes (sp : Space) : (bs : List Byte) → (a : Nat) → State → Except Fault State
  | [], _, s => .ok s
  | v :: vs, a, s =>
    match memWrite sp a v s with
    | .error f => .error f
    | .ok s1 => writeBytes sp vs (a + 1) s1

/-! ### The life of a command -/

/-- The command word's instruction for a command the engine runs. -/
def Command.instr : Command → Instr
  | .encode => .encode
  | .decode => .decode

/-- The configuration check made at issue (R163). DECODE ignores MSGLEN. -/
def configOk (c : Command) (s : State) : Bool :=
  match c with
  | .encode =>
    decide (s.npix.toNat ≤ s.params.pixCap.toNat) &&
      decide (s.msglen.toNat ≤ s.params.msgCap.toNat)
  | .decode => decide (s.npix.toNat ≤ s.params.pixCap.toNat)

/-- Records an outcome in STATUS.RESULT and changes nothing else (R163, R166). -/
def recordResult (c : ResultCode) (s : State) : State :=
  { s with status := withResult c s.status }

/-- Acceptance (R161): in flight, BUSY = 1, RESULT = NONE. The delay is drawn here (R215). -/
def accept (c : Command) (s : State) : State :=
  { s with
    pending := some c
    status := withResult .none (withBusy true s.status)
    delay := Config.latency s.draws
    draws := s.draws + 1 }

/-- Issue of a command that passed the host port (R160, R163). -/
def issue (c : Command) (s : State) : State :=
  if configOk c s then accept c s else recordResult .badConfig s

/-- `complete(code)` (R14, R162): the end of a command, with whatever outcome. -/
def complete (c : ResultCode) (s : State) : State :=
  { s with
    status := withBusy false (withResult c s.status)
    pending := none
    delay := 0 }

end Sys2Proof.Machine
end

