-- ==== Sys2Proof/Machine/Operands.lean ====
section
/-! DEFINITION. The operands of the commands (R83), all from fixed places, and the data formats built
from them: the framed message, its bitstream and the quantities both sides derive (R85 to R88, R100 to
R103, R133). -/

namespace Sys2Proof.Machine

/-- DELIM, the ASCII bytes of the delimiter (R18). -/
def delim : List Byte := [0x7C, 0x7C, 0x7C, 0x45, 0x4E, 0x44, 0x7C, 0x7C, 0x7C]

/-- The operand N = x[NPIX], as a natural (R83). -/
def State.pixels (s : State) : Nat := s.npix.toNat

/-- The operand L = x[MSGLEN], as a natural (R83). -/
def State.payloadLen (s : State) : Nat := s.msglen.toNat

/-- Capacity in bits, C = 3 × N (R102). -/
def State.capacity (s : State) : Nat := 3 * s.pixels

/-- The bitstream length, B = 8 × (L + 9) (R101). -/
def State.streamLen (s : State) : Nat := 8 * (s.payloadLen + 9)

/-- The number of complete units, K = floor(3 × N / 8) (R133); also the diagnostic of R108. -/
def State.units (s : State) : Nat := 3 * s.pixels / 8

/-- The payload M: MSGBUF bytes 0 to L − 1, read in order (R39, R83). -/
def readPayload (s : State) : Except Fault (List Byte × State) :=
  readBytes .msg s.payloadLen 0 s

/-- The framed message F = M ++ DELIM (R87, R100). The payload is not inspected (R100, R116). -/
def framed (payload : List Byte) : List Byte := payload ++ delim

/-- Bitstream bit `j` of a byte sequence: bit 7 − (j mod 8) of byte j div 8 (R60, R88, R101). -/
def streamBit (f : List Byte) (j : Nat) : Bool :=
  (f.getD (j / 8) 0).getLsbD (7 - j % 8)

/-- The address of channel `c` of pixel `i` (R36). -/
def channelAddr (i c : Nat) : Nat := 3 * i + c

/-- `S ends_with T` (R13). -/
def endsWith (s t : List Byte) : Bool := t.isSuffixOf s

end Sys2Proof.Machine
end

