-- ==== Sys2Proof/Machine/Control.lean ====
section
/-! DEFINITION. The command words that do not reach the engine: NOP (R165) and the illegal words
(R166). -/

namespace Sys2Proof.Machine

/-- NOP: no state changes; STATUS.RESULT keeps its value (R165). -/
def execNop (s : State) : Host.Outcome State Fault Refusal := .next s

/-- An illegal word, whatever its fields: STATUS.RESULT <- ILLEGAL_COMMAND and nothing else (R166).
While a command is in flight it has no effect (R57, R164, R178). -/
def execIllegal (_opc : BitVec 8) (_mbz : BitVec 24) (s : State) :
    Host.Outcome State Fault Refusal :=
  match s.pending with
  | none => .next (recordResult .illegalCommand s)
  | some _ => .next s

end Sys2Proof.Machine
end

