-- ==== Sys2Proof/Machine/Decoder.lean ====
section
/-! DEFINITION. DECODE, the LSB bit-unpacker with sentinel scanner (R130). -/

namespace Sys2Proof.Machine

/-- Shifts the LSBs of `n` PIX bytes from address `a` on into `u`, first bit first (R131, R132). -/
def shiftInBits : (n a : Nat) → Byte → State → Except Fault (Byte × State)
  | 0, _, u, s => .ok (u, s)
  | n + 1, a, u, s =>
    match memRead .pix a s with
    | .error e => .error e
    | .ok (ch, s1) => shiftInBits n (a + 1) ((u <<< 1) ||| (ch &&& 1#8)) s1

/-- Unit `k`: the byte assembled from PIX addresses 8k to 8k + 7, MSB first (R132). -/
def readUnit (k : Nat) (s : State) : Except Fault (Byte × State) :=
  shiftInBits 8 (8 * k) 0 s

/-- The sentinel scan (R134) over `n` units from unit `k` on, with the running string `str`: the
string before the delimiter at the first match, `none` if there is no match. -/
def scanUnits : (n k : Nat) → List Byte → State → Except Fault (Option (List Byte) × State)
  | 0, _, _, s => .ok (none, s)
  | n + 1, k, str, s =>
    match readUnit k s with
    | .error e => .error e
    | .ok (u, s1) =>
      if endsWith (str ++ [u]) delim then
        .ok (some ((str ++ [u]).take ((str ++ [u]).length - 9)), s1)
      else scanUnits n (k + 1) (str ++ [u]) s1

/-- Every MSGBUF byte takes the free value DECODE_SCRATCH of a new draw (R141). -/
def scratchMessage (s : State) : State :=
  { s with msg := Memory.scratch s.draws, draws := s.draws + 1 }

/-- x[RESLEN] <- n (R130). -/
def recordReslen (n : Nat) (s : State) : State :=
  { s with reslen := BitVec.ofNat 32 n }

/-- The completion step of DECODE (R130). -/
def decodeCompletion (s : State) : Host.Outcome State Fault Refusal :=
  match scanUnits s.units 0 [] s with
  | .error e => .fault e
  | .ok (none, s1) => .next (complete .notFound (recordReslen 0 (scratchMessage s1)))
  | .ok (some r, s1) =>
    match writeBytes .msg r 0 (scratchMessage s1) with
    | .error e => .fault e
    | .ok s2 => .next (complete .ok (recordReslen r.length s2))

/-- DECODE. Idle, it is the issue of the command (R160, R161, R163); in flight, it is its completion
step (R162, R130). While another command is in flight it has no effect (R57, R164). -/
def execDecode (s : State) : Host.Outcome State Fault Refusal :=
  match s.pending with
  | none => .next (issue .decode s)
  | some .decode => decodeCompletion s
  | some .encode => .next s

end Sys2Proof.Machine
end

