-- ==== Sys2Proof/Machine/Encoder.lean ====
section
/-! DEFINITION. ENCODE, the LSB bit-packer with delimiter (R104). -/

namespace Sys2Proof.Machine

/-- LSB replacement, `(channel & 0xFE) | bit` (R105). -/
def replaceLsb (ch : Byte) (b : Bool) : Byte :=
  (ch &&& 0xFE#8) ||| (if b then 1#8 else 0#8)

/-- The bit cursor of R104: writes bitstream bits `i` to `i + n − 1` of `f` into the LSBs of PIX
addresses `i` to `i + n − 1` (R106). -/
def packBits (f : List Byte) : (n i : Nat) → State → Except Fault State
  | 0, _, s => .ok s
  | n + 1, i, s =>
    match memRead .pix i s with
    | .error e => .error e
    | .ok (ch, s1) =>
      match memWrite .pix i (replaceLsb ch (streamBit f i)) s1 with
      | .error e => .error e
      | .ok s2 => packBits f n (i + 1) s2

/-- x[MAXCHARS] <- floor(3 × N / 8) (R108). -/
def recordMaxchars (s : State) : State :=
  { s with maxchars := BitVec.ofNat 32 s.units }

/-- The completion step of ENCODE (R104): the capacity check precedes the first PIXMEM write (R109). -/
def encodeCompletion (s : State) : Host.Outcome State Fault Refusal :=
  match readPayload s with
  | .error e => .fault e
  | .ok (m, s1) =>
    if s.streamLen > s.capacity then .next (complete .capacityExceeded (recordMaxchars s1))
    else
      match packBits (framed m) s.streamLen 0 (recordMaxchars s1) with
      | .error e => .fault e
      | .ok s2 => .next (complete .ok s2)

/-- ENCODE. Idle, it is the issue of the command (R160, R161, R163); in flight, it is its completion
step (R162, R104). While another command is in flight it has no effect (R57, R164). -/
def execEncode (s : State) : Host.Outcome State Fault Refusal :=
  match s.pending with
  | none => .next (issue .encode s)
  | some .encode => encodeCompletion s
  | some .decode => .next s

end Sys2Proof.Machine
end

