-- ==== Sys2Proof/Machine/Reset.lean ====
section
/-! DEFINITION. The two resets (R200 to R202). The parameters, the host's remaining events, the
responses it has received and the draw counter are not the block's to reset. -/

namespace Sys2Proof.Machine

/-- What both resets do: every control register at its reset value, nothing in flight (R200). -/
def resetRegisters (s : State) : State :=
  { s with
    status := State.reset.status
    npix := State.reset.npix
    msglen := State.reset.msglen
    reslen := State.reset.reslen
    maxchars := State.reset.maxchars
    pending := State.reset.pending
    delay := 0 }

/-- Power-on reset: both memories uninitialised (R201). -/
def powerOnReset (s : State) : State :=
  { resetRegisters s with pix := Memory.blank, msg := Memory.blank }

/-- Warm reset (R202): the memories keep their contents, but the carrier of an ENCODE in flight
(addresses 0 to 3 × NPIX − 1) and all of MSGBUF under a DECODE in flight become uninitialised. -/
def warmReset (s : State) : State :=
  match s.pending with
  | none => resetRegisters s
  | some .encode => { resetRegisters s with pix := s.pix.forgetBelow (3 * s.npix.toNat) }
  | some .decode => { resetRegisters s with msg := Memory.blank }

end Sys2Proof.Machine
end

