-- ==== Sys2Proof/Machine/HostPort.lean ====
section
/-! DEFINITION. The host port: the register map (R20), the six transactions (R51 to R53), the checks
before each (R56 to R59), and the events of the outside world (R92, R95, R200). -/

namespace Sys2Proof.Machine

/-- The register at an index of the REG space (R20); indices 8 and above do not exist (R34). -/
def regOfIndex (r : Word) : Option Reg :=
  match r.toNat with
  | 0 => some .cmd
  | 1 => some .status
  | 2 => some .npix
  | 3 => some .msglen
  | 4 => some .reslen
  | 5 => some .maxchars
  | 6 => some .pixcap
  | 7 => some .msgcap
  | _ => none

/-- A register's index (R20). -/
def Reg.index : Reg → Word
  | .cmd => 0
  | .status => 1
  | .npix => 2
  | .msglen => 3
  | .reslen => 4
  | .maxchars => 5
  | .pixcap => 6
  | .msgcap => 7

/-- What a read of a register returns (R20): CMD stores nothing and reads 0 (R23), PIXCAP and MSGCAP
read the block's constants (R32, R33). -/
def regValue (s : State) : Reg → Word
  | .cmd => 0
  | .status => s.status
  | .npix => s.npix
  | .msglen => s.msglen
  | .reslen => s.reslen
  | .maxchars => s.maxchars
  | .pixcap => s.params.pixCap
  | .msgcap => s.params.msgCap

/-- The registers the host may not write (R58). -/
def Reg.readOnly : Reg → Bool
  | .status | .reslen | .maxchars | .pixcap | .msgcap => true
  | .cmd | .npix | .msglen => false

/-- Whether the address a transaction names exists (R56). -/
def inRange (s : State) : Transaction → Bool
  | .regRead r => decide (r.toNat < 8)
  | .regWrite r _ => decide (r.toNat < 8)
  | .pixRead a => decide (a.toNat < s.extent .pix)
  | .pixWrite a _ => decide (a.toNat < s.extent .pix)
  | .msgRead a => decide (a.toNat < s.extent .msg)
  | .msgWrite a _ => decide (a.toNat < s.extent .msg)

/-- Whether a transaction writes a read-only register (R58). -/
def writesReadOnly : Transaction → Bool
  | .regWrite r _ =>
    match regOfIndex r with
    | some x => x.readOnly
    | none => false
  | _ => false

/-- The first check a transaction fails, in the order range, lockout, read-only (R59). Only
`RegRead(STATUS)` passes the lockout (R57). -/
def portCheck (s : State) (t : Transaction) : Option ErrKind :=
  if inRange s t = false then some .range
  else if s.busy && !decide (t = .regRead Reg.status.index) then some .busy
  else if writesReadOnly t then some .readOnly
  else none

/-- The host receives a response (R54). -/
def respond (r : Response) (s : State) : State :=
  { s with responses := s.responses ++ [⟨r, false⟩] }

/-- The host receives the response of a poll that `wait` repeats (R54, R92). -/
def respondRepeated (r : Response) (s : State) : State :=
  { s with responses := s.responses ++ [⟨r, true⟩] }

/-- The response to a transaction that ends in a next state; a fault stays one. -/
def thenRespond (r : Response) :
    Host.Outcome State Fault Refusal → Host.Outcome State Fault Refusal
  | .next s => .next (respond r s)
  | .fault f => .fault f
  | .refused q => .refused q

/-- A host read of one byte, which answers the byte (R52, R53, R203). -/
def hostReadByte (sp : Space) (a : Nat) (s : State) : Host.Outcome State Fault Refusal :=
  match memRead sp a s with
  | .error f => .fault f
  | .ok (v, s1) => .next (respond (.ok (v.setWidth 32)) s1)

/-- A host write of one byte, which answers OK(0) (R52, R53). -/
def hostWriteByte (sp : Space) (a : Nat) (v : Byte) (s : State) :
    Host.Outcome State Fault Refusal :=
  match memWrite sp a v s with
  | .error f => .fault f
  | .ok s1 => .next (respond (.ok 0) s1)

/-- A register write that passed the checks (R51): CMD issues the command its word decodes to (R160),
NPIX and MSGLEN store any value unchanged (R28, R29). The port rejects every other register (R58). -/
def writeReg (x : Reg) (v : Word) (s : State) : Host.Outcome State Fault Refusal :=
  match x with
  | .cmd => thenRespond (.ok 0) (exec (decodeWord v) s)
  | .npix => .next (respond (.ok 0) { s with npix := v })
  | .msglen => .next (respond (.ok 0) { s with msglen := v })
  | .status | .reslen | .maxchars | .pixcap | .msgcap => .next (respond (.err .readOnly) s)

/-- A transaction that passed the three checks (R51 to R53). -/
def performTransaction (t : Transaction) (s : State) : Host.Outcome State Fault Refusal :=
  match t with
  | .regRead r =>
    match regOfIndex r with
    | some x => .next (respond (.ok (regValue s x)) s)
    | none => .next (respond (.err .range) s)
  | .regWrite r v =>
    match regOfIndex r with
    | some x => writeReg x v s
    | none => .next (respond (.err .range) s)
  | .pixRead a => hostReadByte .pix a.toNat s
  | .pixWrite a v => hostWriteByte .pix a.toNat v s
  | .msgRead a => hostReadByte .msg a.toNat s
  | .msgWrite a v => hostWriteByte .msg a.toNat v s

/-- One host transaction (R54, R59): performed if it passes the checks, else answered with the first
check that fails, and then nothing changes. -/
def hostTransaction (t : Transaction) (s : State) : Host.Outcome State Fault Refusal :=
  match portCheck s t with
  | some k => .next (respond (.err k) s)
  | none => performTransaction t s

/-- The host goes on with `es` before its remaining events. -/
def continueWith (es : List HostEvent) (s : State) : State := { s with host := es ++ s.host }

/-- The MsgReads of `getmsg` for a message of `n` bytes (R95). -/
def readMessageEvents (n : Nat) : List HostEvent :=
  (List.range n).map fun k => .transaction (.msgRead (BitVec.ofNat 32 k))

/-- One event of the outside world. `wait` is a RegRead(STATUS) that repeats while bit 0 of the value
is 1 (R92); `getmsg` reads RESLEN and then that many message bytes (R95). -/
def hostEvent (e : HostEvent) (s : State) : Host.Outcome State Fault Refusal :=
  match e with
  | .transaction t => hostTransaction t s
  | .wait =>
    .next (if busyBit (regValue s .status)
      then continueWith [.wait] (respondRepeated (.ok (regValue s .status)) s)
      else respond (.ok (regValue s .status)) s)
  | .getmsg =>
    match portCheck s (.regRead Reg.reslen.index) with
    | some k => .next (respond (.err k) s)
    | none =>
      .next (continueWith (readMessageEvents s.reslen.toNat)
        (respond (.ok (regValue s .reslen)) s))
  | .powerOnReset => .next (powerOnReset s)
  | .warmReset => .next (warmReset s)

/-- The host's turn begins: its next event is taken from the list, and a command in flight comes one
turn nearer its completion (R167, R215). -/
def takeEvent (rest : List HostEvent) (s : State) : State :=
  { s with host := rest, delay := s.delay - 1 }

/-- The command whose completion step is taken next, if it is the engine's turn: a command is in
flight and either its delay is over or the host has nothing left to do (R162, R167, R215). -/
def engineTurn (s : State) : Option Command :=
  match s.pending with
  | none => none
  | some c => if s.delay == 0 || s.host.isEmpty then some c else none

/-- The host's turn. With no event left the block is idle and keeps its state (R162, R192). -/
def hostTurn (s : State) : Host.Outcome State Fault Refusal :=
  match s.host with
  | [] => .next s
  | e :: rest => hostEvent e (takeEvent rest s)

end Sys2Proof.Machine
end

