-- ==== Sys2Proof/Machine/Step.lean ====
section
/-! DEFINITION. One step of the whole: of the engine when it is its turn, else of the host (R162,
R167). -/

namespace Sys2Proof.Machine

/-- One step: the completion step of the command in flight (R162), or the host's next event. -/
def step (s : State) : Host.Outcome State Fault Refusal :=
  match engineTurn s with
  | some c => exec c.instr s
  | none => hostTurn s

/-- `s` with the command word `w` as the host's next transaction, and the block idle, which a write
to CMD needs to be performed (R57, R73, R160): the very next step runs exactly that command. -/
def State.withFetchWord (s : State) (nbits w : Nat) : State :=
  { s with
    host := .transaction (.regWrite Reg.cmd.index (BitVec.ofNat 32 (w % 2 ^ nbits))) :: s.host
    pending := none
    status := withBusy false s.status
    delay := 0 }

end Sys2Proof.Machine
end

