-- ==== Sys2Proof/Machine/HostProgram.lean ====
section
/-! DEFINITION. The host notation (R91 to R95): host lines and pseudo-instructions as lists of
events, with the character mapping both ways and its rejection (R19, R94, R182). Addresses and register values
are 32 bits wide (R50, R51); a number of 2^32 or more on a line is taken modulo 2^32, which is the
model's choice (DESIGN CHOICE, log entry 25). -/

namespace Sys2Proof.Machine

/-- The host's own errors, raised before anything reaches the block. -/
inductive HostError where
  /-- `InvalidCharacter`: a code point above 255 (R182). That it carries the code point is the model's
  choice (log entry 22). -/
  | invalidCharacter (codePoint : Nat)
  deriving DecidableEq, Repr

/-- `wreg R, v` (R91). -/
def wreg (r : Reg) (v : Word) : HostEvent := .transaction (.regWrite r.index v)
/-- `rreg R` (R91). -/
def rreg (r : Reg) : HostEvent := .transaction (.regRead r.index)
/-- `wpix a, v` (R91), the address modulo 2^32 (log entry 25). -/
def wpix (a : Nat) (v : Byte) : HostEvent := .transaction (.pixWrite (BitVec.ofNat 32 a) v)
/-- `rpix a` (R91), the address modulo 2^32 (log entry 25). -/
def rpix (a : Nat) : HostEvent := .transaction (.pixRead (BitVec.ofNat 32 a))
/-- `wmsg a, v` (R91), the address modulo 2^32 (log entry 25). -/
def wmsg (a : Nat) (v : Byte) : HostEvent := .transaction (.msgWrite (BitVec.ofNat 32 a) v)
/-- `rmsg a` (R91), the address modulo 2^32 (log entry 25). -/
def rmsg (a : Nat) : HostEvent := .transaction (.msgRead (BitVec.ofNat 32 a))
/-- `cmd 0xWWWWWWWW` (R91). -/
def cmdWord (w : Word) : HostEvent := wreg .cmd w
/-- `cmd NOP`, `cmd ENCODE`, `cmd DECODE`, by the command's word (R91). -/
def cmdInstr (i : Instr) : HostEvent := cmdWord (encodeInstr i)

/-- `setpix i, r, g, b` (R93). An address of 2^32 or more is taken modulo 2^32 (log entry 25). -/
def setpix (i : Nat) (r g b : Byte) : List HostEvent :=
  [wpix (channelAddr i 0) r, wpix (channelAddr i 1) g, wpix (channelAddr i 2) b]

/-- `fillpix n, r, g, b` (R93). For n of 2^32 or more the value of the last line has no 32-bit form, on
which the spec is silent: the model takes its low 32 bits (log entry 25). -/
def fillpix (n : Nat) (r g b : Byte) : List HostEvent :=
  (List.range n).flatMap (fun i => setpix i r g b) ++ [wreg .npix (BitVec.ofNat 32 n)]

/-- The byte of a character: its code point (R19). A code point above 255 is rejected, never
truncated (R182). -/
def byteOfChar (c : Nat) : Except HostError Byte :=
  if c ≤ 255 then .ok (BitVec.ofNat 8 c) else .error (.invalidCharacter c)

/-- The bytes of a string given by its code points. -/
def bytesOfString : List Nat → Except HostError (List Byte)
  | [] => .ok []
  | c :: cs =>
    match byteOfChar c with
    | .error e => .error e
    | .ok b =>
      match bytesOfString cs with
      | .error e => .error e
      | .ok bs => .ok (b :: bs)

/-- The single-byte character of a byte: the code point equal to it (R19). -/
def charOfByte (b : Byte) : Nat := b.toNat

/-- The string, by its code points, of a byte string (R19). No byte is rejected (R137). -/
def stringOfBytes (bs : List Byte) : List Nat := bs.map charOfByte

/-- The bytes of the responses to MsgReads, if all were accepted (R53). -/
def bytesOfResponses : List Response → Option (List Byte)
  | [] => some []
  | .ok v :: rs => (bytesOfResponses rs).map (v.setWidth 8 :: ·)
  | .err _ :: _ => none

/-- The string, by its code points, that the host recovers by `getmsg` (R19, R95): from the response to
its RegRead(RESLEN) and those to its RESLEN MsgReads. Responses that are not those of a whole accepted
`getmsg` give no string (log entry 26). -/
def messageOfGetmsg : List Response → Option (List Nat)
  | .ok n :: rs => if rs.length = n.toNat then (bytesOfResponses rs).map stringOfBytes else none
  | _ => none

/-- The MsgWrites of a byte string from address `k` on. -/
def writeMessageEvents : (k : Nat) → List Byte → List HostEvent
  | _, [] => []
  | k, b :: bs => wmsg k b :: writeMessageEvents (k + 1) bs

/-- `setmsg "s"` (R94), for a string given by its code points: it has no expansion, and the host
rejects it, if one of them is above 255 (R182). For a string of 2^32 characters or more the length has
no 32-bit form, on which the spec is silent: the model takes its low 32 bits (log entry 25). -/
def setmsg (codePoints : List Nat) : Except HostError (List HostEvent) :=
  match bytesOfString codePoints with
  | .error e => .error e
  | .ok bs => .ok (writeMessageEvents 0 bs ++ [wreg .msglen (BitVec.ofNat 32 bs.length)])

/-- `run ENCODE` or `run DECODE` (R95). -/
def runCommand (c : Command) : List HostEvent := [cmdInstr c.instr, .wait, rreg .status]

/-- Where the host places image pixel (x, y) of a `w`-wide image (R37, R211). -/
def pixelIndex (w x y : Nat) : Nat := y * w + x

end Sys2Proof.Machine
end

