-- ==== Sys2Proof/Safety.lean ====
section
/-! DEFINITION. The terms in which claims are made: the invariant of the block, what a carrier's LSBs
spell, when a memory range is initialised, when a run is over and what it is judged by. -/

namespace Sys2Proof.Machine

/-- The invariant of the block, kept by every step. -/
structure State.Inv (s : State) : Prop where
  /-- The parameters meet R10. -/
  params : s.params.ok = true
  /-- PIXMEM is in canonical form. -/
  pixWf : s.pix.wf
  /-- PIXMEM has 3 × PIX_CAP bytes (R35). -/
  pixBelow : s.pix.below (s.extent .pix)
  /-- A PIXMEM byte never written is uninitialised (R203). -/
  pixFill : s.pix.fill = .uninit
  /-- MSGBUF is in canonical form. -/
  msgWf : s.msg.wf
  /-- MSGBUF has MSG_CAP bytes (R38). -/
  msgBelow : s.msg.below (s.extent .msg)
  /-- The reserved bits of STATUS read 0 (R27). -/
  reserved : reservedBits s.status = 0
  /-- RESULT holds one of the six codes that are ever written (R26, R170). -/
  resultCode : ∃ c : ResultCode, s.result = c.code
  /-- `pending` is `none` exactly when BUSY = 0 (R40). -/
  busyIff : s.busy = true ↔ s.pending ≠ none
  /-- RESULT is NONE while a command is in flight (R26, R161). -/
  busyResult : s.busy = true → s.result = ResultCode.none.code
  /-- A command in flight has passed its configuration check, and its operands have not changed since
  (R84, R163). -/
  accepted : ∀ c, s.pending = some c → configOk c s = true
  /-- RESLEN is a length DECODE can give (R133). -/
  reslen : s.reslen.toNat ≤ 3 * s.params.pixCap.toNat / 8 - 9
  /-- MAXCHARS is a count ENCODE can give (R31). -/
  maxchars : s.maxchars.toNat ≤ 3 * s.params.pixCap.toNat / 8

/-- The bytes at addresses 0 to `n − 1` all hold a value (R203). -/
def Memory.initialised (m : Memory) (n : Nat) : Prop := ∀ a < n, m.get a ≠ none

/-- The byte at `a`, 0 where it is uninitialised: for statements about initialised ranges. -/
def Memory.byte (m : Memory) (a : Nat) : Byte := (m.get a).getD 0

/-- Extracted bit `a`: bit 0 of PIXMEM byte `a` (R131). -/
def Memory.lsb (m : Memory) (a : Nat) : Bool := (m.byte a).getLsbD 0

/-- Unit `k` by the sum of R132: Σ over j of bit(PIXMEM[8k + j], 0) << (7 − j). -/
def Memory.unit (m : Memory) (k : Nat) : Byte :=
  BitVec.ofNat 8 (((List.range 8).map fun j => (m.lsb (8 * k + j)).toNat <<< (7 - j)).sum)

/-- The first `n` bytes of a memory, as a byte string. -/
def Memory.prefixBytes (m : Memory) (n : Nat) : List Byte := (List.range n).map m.byte

/-- The units 0 to `n − 1` of a carrier, as a byte string. -/
def Memory.unitString (m : Memory) (n : Nat) : List Byte := (List.range n).map m.unit

/-- The delimiter ends at unit `k` of a carrier: the 9 units up to and including `k` are DELIM
(R134, R143). -/
def Memory.delimEndsAt (m : Memory) (k : Nat) : Prop :=
  8 ≤ k ∧ ∀ j < 9, m.unit (k - 8 + j) = delim.getD j 0

/-- Unit `k` is the first at which the delimiter ends (R134). -/
def Memory.firstMatch (m : Memory) (k : Nat) : Prop :=
  m.delimEndsAt k ∧ ∀ k' < k, ¬ m.delimEndsAt k'

/-- The run is over (R168): the host has no event left and no command is in flight. -/
def State.over (s : State) : Prop := s.host = [] ∧ s.pending = none

/-- What a run's observation says of one memory byte (R168). -/
inductive Content where
  /-- The byte holds this value. -/
  | value (v : Byte)
  /-- The byte is uninitialised (R203). -/
  | uninitialised
  /-- The byte holds a DECODE_SCRATCH value (R141), which the observation does not give. -/
  | unspecified
  deriving DecidableEq, Repr

/-- What an observation says of a byte that is not listed. -/
def Fill.content : Fill → Content
  | .uninit => .uninitialised
  | .scratch _ => .unspecified

/-- What an observation says of the byte at `a`. -/
def Memory.content (m : Memory) (a : Nat) : Content :=
  match lookupCell a m.cells with
  | some v => .value v
  | none => m.fill.content

/-- The responses an observation gives: all but the polls that `wait` repeated (R168). -/
def State.observedResponses (s : State) : List Response :=
  (s.responses.filter (fun r => !r.repeated)).map Received.response

/-- Two states agree on what a run is judged by (R168): the registers, the contents of the two memories at
the addresses that exist (R50; the registers PIXCAP and MSGCAP make these the same in both), and the
responses the host has received. How often `wait` polled, and which values the DECODE_SCRATCH bytes hold,
are no part of it. -/
def State.sameObservation (s t : State) : Prop :=
  (∀ r, regValue t r = regValue s r) ∧
    (∀ a < s.extent .pix, t.pix.content a = s.pix.content a) ∧
    (∀ a < s.extent .msg, t.msg.content a = s.msg.content a) ∧
    t.observedResponses = s.observedResponses

/-- It is the host's turn, and its next event is `e` (R167). -/
def State.hostNext (s : State) (e : HostEvent) (rest : List HostEvent) : Prop :=
  engineTurn s = none ∧ s.host = e :: rest

/-- Two states agree on everything the spec gives the block: its parameters, registers, command in
flight and memories. They may differ in the host's side and in the model's own counters. -/
def State.sameBlock (s t : State) : Prop :=
  t.params = s.params ∧ t.status = s.status ∧ t.npix = s.npix ∧ t.msglen = s.msglen ∧
    t.reslen = s.reslen ∧ t.maxchars = s.maxchars ∧ t.pending = s.pending ∧ t.pix = s.pix ∧
    t.msg = s.msg

/-- STATUS of `t` against STATUS of `s`: the two fields have these values and the reserved bits have
not changed (R24). -/
def State.statusBecomes (s t : State) (busy : Bool) (result : BitVec 4) : Prop :=
  t.busy = busy ∧ t.result = result ∧ reservedBits t.status = reservedBits s.status

/-- A step that is a reset (R200): the host's turn, and its next event is one of the two resets. -/
def State.resetsNext (s : State) : Prop :=
  engineTurn s = none ∧
    (s.host.head? = some .powerOnReset ∨ s.host.head? = some .warmReset)

end Sys2Proof.Machine
end

