-- ==== Sys2Proof/Certificates/Slice0/Obligations.lean ====
section
/-! DEFINITION. The statements about the model, from the numbered rules of the spec. In all of them
`Sys2Proof.Machine.exec` on a state with a command in flight is that command's completion step (R162),
and on an idle state its issue (R160), which is the model's form (log entry 1); DELIM is R18's bytes,
PRESUMED in log entry 13, wherever it occurs; `takeEvent rest s` is `s` once the host has taken its
next event, which also counts the model's own delay down by one (log entry 3). -/

open Sys2Proof Sys2Proof.Machine

/-! ### Command words (30_encoding.md) -/

/-- R81, R82, R89 on a few words written out from the table: V40 to V43. -/
def Obligations.TabledWordsDecode : Prop :=
  decodeWord 0x00000000#32 = .nop ∧ decodeWord 0x00000001#32 = .encode ∧
    decodeWord 0x00000002#32 = .decode ∧ decodeWord 0x00000003#32 = .illegal 0x03#8 0#24 ∧
    decodeWord 0x00000101#32 = .illegal 0x01#8 0x000001#24 ∧
    decodeWord 0x80000000#32 = .illegal 0x00#8 0x800000#24 ∧
    decodeWord 0xFFFFFFFF#32 = .illegal 0xFF#8 0xFFFFFF#24

/-- R82: decoding is an exact match on all 32 bits, and every other word is illegal. -/
def Obligations.DecodingIsAnExactMatch : Prop :=
  (∀ w : Word,
    (decodeWord w = .nop ↔ w = 0x00000000#32) ∧
    (decodeWord w = .encode ↔ w = 0x00000001#32) ∧
    (decodeWord w = .decode ↔ w = 0x00000002#32) ∧
    (w ≠ 0x00000000#32 → w ≠ 0x00000001#32 → w ≠ 0x00000002#32 →
      decodeWord w = .illegal (w.extractLsb' 0 8) (w.extractLsb' 8 24))) ∧
  ∀ r ∈ opRows, r.mask = 0xFFFFFFFF#32 ∧ r.pattern = encodeInstr r.instr

/-- Decoding the word of a well-formed command gives the command back. -/
def Obligations.DecodeOfEncode : Prop :=
  ∀ i : Instr, i.wf = true → decodeWord (encodeInstr i) = i

/-- Every word is the word of the well-formed command it decodes to, so no bit of a word is dropped.
-/
def Obligations.EncodeOfDecode : Prop :=
  ∀ w : Word, (decodeWord w).wf = true ∧ encodeInstr (decodeWord w) = w

/-! ### NOP and illegal words (42_control.md) -/

/-- R165: NOP changes nothing; written while idle it is answered OK(0), while busy ERR(BUSY). -/
def Obligations.NopChangesNothing : Prop :=
  (∀ s : State, exec .nop s = .next s) ∧
  ∀ (s : State) (rest : List HostEvent),
    s.hostNext (.transaction (.regWrite 0 0x00000000#32)) rest →
      (s.busy = false → step s = .next (respond (.ok 0) (takeEvent rest s))) ∧
      (s.busy = true → step s = .next (respond (.err .busy) (takeEvent rest s)))

/-- R166: an illegal word, whatever its fields, records ILLEGAL_COMMAND (4) and changes nothing else;
the write is answered OK(0). -/
def Obligations.IllegalWordRecordsIllegalCommand : Prop :=
  (∀ (opc : BitVec 8) (mbz : BitVec 24) (s : State), s.pending = none →
    ∃ t, exec (.illegal opc mbz) s = .next t ∧ t = { s with status := t.status } ∧
      s.statusBecomes t s.busy 4) ∧
  ∀ (s : State) (w : Word) (rest : List HostEvent),
    w ≠ 0x00000000#32 → w ≠ 0x00000001#32 → w ≠ 0x00000002#32 →
    s.hostNext (.transaction (.regWrite 0 w)) rest → s.busy = false → s.pending = none →
    ∃ t, step s = .next (respond (.ok 0) t) ∧
      t = { takeEvent rest s with status := t.status } ∧ s.statusBecomes t false 4

/-! ### Issue, acceptance and completion (42_control.md) -/

/-- R161: acceptance sets pending, BUSY = 1 and RESULT = NONE and changes nothing else the spec gives
the block; from then on the host can perform only RegRead(STATUS). -/
def Obligations.AcceptanceSetsBusy : Prop :=
  ∀ (c : Command) (s : State), s.pending = none → configOk c s = true →
    ∃ t, exec c.instr s = .next t ∧
      t = { s with status := t.status, pending := some c, delay := t.delay, draws := t.draws } ∧
      s.statusBecomes t true 0 ∧ ∀ x, x ≠ .regRead 1 → portCheck t x ≠ none

/-- R163: the configuration check at issue. A command that passes it is accepted; one that fails it
records BAD_CONFIG (5) and changes nothing else. -/
def Obligations.ConfigurationIsCheckedAtIssue : Prop :=
  ∀ (c : Command) (s : State), s.pending = none →
    let passes := s.npix.toNat ≤ s.params.pixCap.toNat ∧
      (c = .encode → s.msglen.toNat ≤ s.params.msgCap.toNat)
    (passes → ∃ t, exec c.instr s = .next t ∧ t.pending = some c ∧ t.busy = true) ∧
    (¬ passes → ∃ t, exec c.instr s = .next t ∧ t = { s with status := t.status } ∧
      s.statusBecomes t s.busy 5)

/-- A command other than the one in flight has no effect: it is neither performed nor remembered. This
is the model's choice (log entry 1) for pairs of command and state that no step reaches: what R57 and
R164 say is that the port rejects the write. -/
def Obligations.OtherCommandInFlightHasNoEffect : Prop :=
  ∀ (c : Command) (i : Instr) (s : State), s.pending = some c → i ≠ c.instr →
    exec i s = .next s

/-- R162: with a command in flight the engine has exactly one step, that command's; it ends the
command. With none in flight the engine has no step. When the engine's turn comes (the delay is 0, or
the host has no event left) is the model's choice, log entry 3; that a step with nothing left to do
keeps the state is the model's choice, log entry 16. -/
def Obligations.EngineStepEndsTheCommand : Prop :=
  (∀ (c : Command) (s : State), s.pending = some c → (s.delay = 0 ∨ s.host = []) →
    step s = exec c.instr s) ∧
  (∀ (c : Command) (s t : State), s.pending = some c → exec c.instr s = .next t →
    t.pending = none ∧ t.busy = false ∧ t.result ≠ 0) ∧
  (∀ s : State, s.pending = none → engineTurn s = none) ∧
  (∀ s : State, s.pending = none → s.host = [] → step s = .next s)

/-- A write to CMD while idle runs exactly the command its word decodes to, then answers OK(0). -/
def Obligations.StepRunsTheDecodedCommand : Prop :=
  ∀ (s : State) (w : Word) (rest : List HostEvent),
    s.hostNext (.transaction (.regWrite 0 w)) rest → s.busy = false →
    step s = match exec (decodeWord w) (takeEvent rest s) with
      | .next t => .next { t with responses := t.responses ++ [⟨.ok 0, false⟩] }
      | .fault f => .fault f
      | .refused r => .refused r

/-- From every state of the block with a command in flight, under UNINIT_POLICY = any value, the
command is over after at most its delay and one more step. The delay is the model's own: a finite free
value, never a number of the spec (R215). -/
def Obligations.CompletionIsReached : Prop :=
  ∀ (s : State) (c : Command), s.Inv → s.params.uninit = .anyValue → s.pending = some c →
    ∃ n t, n ≤ s.delay + 1 ∧ Sys2Proof.core.run n s = .next t ∧ t.pending = none

/-- R45 (the spec's own inference from R41): what a command in flight does depends on NPIX, MSGLEN,
PIXMEM and MSGBUF, and not on STATUS, RESLEN or MAXCHARS as an earlier command left them. Of MSGBUF
after DECODE it says the message and which bytes are DECODE_SCRATCH, not what those hold (R141). That
the two runs draw the same bytes where they read uninitialised ones (under any value) is so because
the model numbers its free values by a counter that is the same in both (log entries 5 and 6). -/
def Obligations.CommandsAreStateless : Prop :=
  ∀ (c : Command) (s : State) (st rl mc : Word), s.pending = some c →
    let s' : State := { s with status := st, reslen := rl, maxchars := mc }
    (∀ t, exec c.instr s = .next t → ∃ t', exec c.instr s' = .next t' ∧ t'.result = t.result ∧
      t'.pix = t.pix ∧ (∀ a, t'.msg.content a = t.msg.content a) ∧
      (c = .encode → t'.maxchars = t.maxchars ∧ t'.msg = t.msg) ∧
      (c = .decode → t'.reslen = t.reslen ∧
        ∀ i < t.reslen.toNat, t'.msg.get i = t.msg.get i)) ∧
    ∀ f, exec c.instr s = .fault f → exec c.instr s' = .fault f

/-! ### ENCODE (40_encoder.md) -/

/-- R104 to R108: a carrier that the bitstream fits gets it in the LSBs of its first B bytes, MSB
first; every other byte keeps its value, MAXCHARS is floor(3 × N / 8), the outcome is OK, and nothing
else changes. The nine bytes of DELIM are R18's, PRESUMED in log entry 13. -/
def Obligations.EncodeWritesTheBitstream : Prop :=
  ∀ s : State, s.pending = some .encode →
    s.npix.toNat ≤ s.params.pixCap.toNat → s.msglen.toNat ≤ s.params.msgCap.toNat →
    8 * (s.msglen.toNat + 9) ≤ 3 * s.npix.toNat →
    s.msg.initialised s.msglen.toNat → s.pix.initialised (8 * (s.msglen.toNat + 9)) →
    let f := s.msg.prefixBytes s.msglen.toNat ++
      [0x7C#8, 0x7C#8, 0x7C#8, 0x45#8, 0x4E#8, 0x44#8, 0x7C#8, 0x7C#8, 0x7C#8]
    ∃ t, exec .encode s = .next t ∧
      t = { s with status := t.status, maxchars := t.maxchars, pending := none, pix := t.pix,
                   delay := 0 } ∧
      s.statusBecomes t false 1 ∧ t.maxchars.toNat = 3 * s.npix.toNat / 8 ∧
      ∀ a, t.pix.get a =
        if a < 8 * (s.msglen.toNat + 9) then
          some ((s.pix.byte a &&& 0xFE#8) |||
            (if (f.getD (a / 8) 0).getLsbD (7 - a % 8) then 1#8 else 0#8))
        else s.pix.get a

/-- R103, R109: a bitstream longer than 3 × N bits fails with CAPACITY_EXCEEDED (3); only STATUS and
MAXCHARS change. It completes so for every payload that is initialised, and wherever it completes it
is so. -/
def Obligations.EncodeTooLongLeavesPixmem : Prop :=
  (∀ s : State, s.pending = some .encode →
    s.msglen.toNat ≤ s.params.msgCap.toNat → s.msg.initialised s.msglen.toNat →
    8 * (s.msglen.toNat + 9) > 3 * s.npix.toNat →
    ∃ t, exec .encode s = .next t ∧
      t = { s with status := t.status, maxchars := t.maxchars, pending := none, delay := 0 } ∧
      s.statusBecomes t false 3 ∧ t.maxchars.toNat = 3 * s.npix.toNat / 8) ∧
  ∀ s t : State, s.pending = some .encode → exec .encode s = .next t →
    8 * (s.msglen.toNat + 9) > 3 * s.npix.toNat →
    t = { s with status := t.status, maxchars := t.maxchars, pending := none, delay := 0,
                 draws := t.draws } ∧
      s.statusBecomes t false 3 ∧ t.maxchars.toNat = 3 * s.npix.toNat / 8

/-- R112 (the spec's own inference from R103): ENCODE succeeds exactly when 8 × (L + 9) ≤ 3 × N, in
the four equivalent forms of the rule. -/
def Obligations.EncodeSucceedsExactlyWhenItFits : Prop :=
  ∀ s t : State, s.pending = some .encode → exec .encode s = .next t →
    let n := s.npix.toNat
    let l := s.msglen.toNat
    (t.result = 1 ↔ 8 * (l + 9) ≤ 3 * n) ∧ (t.result = 1 ↔ l + 9 ≤ 3 * n / 8) ∧
      (t.result = 1 ↔ 24 ≤ n ∧ l ≤ 3 * n / 8 - 9) ∧
      (t.result = 1 ↔ (8 * (l + 9) + 2) / 3 ≤ n)

/-- R111 (the spec's own inference from R105 and R107): whatever ENCODE does, no channel changes in
its bits 7:1, nor by more than 1. -/
def Obligations.EncodeKeepsTheCarrierBits : Prop :=
  ∀ s t : State, exec .encode s = .next t → ∀ a v, s.pix.get a = some v →
    ∃ v', t.pix.get a = some v' ∧ v' &&& 0xFE#8 = v &&& 0xFE#8 ∧
      v'.toNat ≤ v.toNat + 1 ∧ v.toNat ≤ v'.toNat + 1

/-- R110 (the spec's own inference from R104 and R105): ENCODE never writes MSGBUF, NPIX, MSGLEN,
RESLEN, or bits 7:1 of a channel; nor the parameters, nor anything of the host's. -/
def Obligations.EncodeNeverWrites : Prop :=
  ∀ s t : State, exec .encode s = .next t →
    t.msg = s.msg ∧ t.npix = s.npix ∧ t.msglen = s.msglen ∧ t.reslen = s.reslen ∧
      t.params = s.params ∧ t.host = s.host ∧ t.responses = s.responses ∧
      ∀ a v, s.pix.get a = some v → ∃ v', t.pix.get a = some v' ∧ v' &&& 0xFE#8 = v &&& 0xFE#8

/-- R117: an ENCODE whose bits the carrier's LSBs already hold leaves PIXMEM as it was, as data. -/
def Obligations.EncodeOfTheSameBitsLeavesPixmem : Prop :=
  ∀ s t : State, s.Inv → s.pending = some .encode → exec .encode s = .next t →
    s.msg.initialised s.msglen.toNat → s.pix.initialised (8 * (s.msglen.toNat + 9)) →
    (∀ a < 8 * (s.msglen.toNat + 9),
      s.pix.lsb a = streamBit (framed (s.msg.prefixBytes s.msglen.toNat)) a) →
    t.pix = s.pix

/-- R114 (the spec's own inference from R103 and R108): with NPIX = 0 ENCODE completes with
CAPACITY_EXCEEDED, MAXCHARS = 0 and PIXMEM unchanged. -/
def Obligations.EncodeWithoutPixels : Prop :=
  ∀ s : State, s.pending = some .encode → s.npix = 0 →
    s.msglen.toNat ≤ s.params.msgCap.toNat → s.msg.initialised s.msglen.toNat →
    ∃ t, exec .encode s = .next t ∧ t.result = 3 ∧ t.busy = false ∧ t.maxchars = 0 ∧
      t.pix = s.pix

/-- R203 for ENCODE, with R105 to R107. Under UNINIT_POLICY = any value it always completes, with OK
exactly when 8 × (L + 9) ≤ 3 × N and else with CAPACITY_EXCEEDED. On OK every channel `a` of the
bitstream's B bytes holds a value whose LSB is bitstream bit `a`, wherever that bit comes from DELIM
or from a payload byte that holds a value; no other byte of PIXMEM changes. Under fault the first
payload byte, and the first carrier byte it touches, that was never written is a fault. That the
payload is read before the capacity check is the pseudocode's order (R104, log entry 9). -/
def Obligations.EncodeOverUninitialisedBytes : Prop :=
  (∀ s : State, s.pending = some .encode → s.params.uninit = .anyValue →
    s.npix.toNat ≤ s.params.pixCap.toNat → s.msglen.toNat ≤ s.params.msgCap.toNat →
    ∃ t, exec .encode s = .next t ∧ t.pending = none ∧
      t.result = (if 8 * (s.msglen.toNat + 9) ≤ 3 * s.npix.toNat then 1 else 3) ∧
      ∀ a, if t.result = 1 ∧ a < 8 * (s.msglen.toNat + 9) then
          ∃ v, t.pix.get a = some v ∧ (s.msglen.toNat ≤ a / 8 ∨ s.msg.get (a / 8) ≠ none →
            v.getLsbD 0 = streamBit (framed (s.msg.prefixBytes s.msglen.toNat)) a)
        else t.pix.get a = s.pix.get a) ∧
  (∀ (s : State) (a : Nat), s.pending = some .encode → s.params.uninit = .fault →
    s.msglen.toNat ≤ s.params.msgCap.toNat → a < s.msglen.toNat → s.msg.initialised a →
    s.msg.get a = none → exec .encode s = .fault (.uninitialisedRead .msg a)) ∧
  ∀ (s : State) (a : Nat), s.pending = some .encode → s.params.uninit = .fault →
    s.npix.toNat ≤ s.params.pixCap.toNat → s.msglen.toNat ≤ s.params.msgCap.toNat →
    8 * (s.msglen.toNat + 9) ≤ 3 * s.npix.toNat → s.msg.initialised s.msglen.toNat →
    a < 8 * (s.msglen.toNat + 9) → s.pix.initialised a → s.pix.get a = none →
    exec .encode s = .fault (.uninitialisedRead .pix a)

/-! ### DECODE (41_decoder.md) -/

/-- R134, R140, and R135 (the spec's own inference from R134): DECODE stops at the first unit `k` at
which the last 9 units are DELIM; RESLEN is k − 8, MSGBUF holds the units before the delimiter, the
outcome is OK, and nothing else of the block changes but MSGBUF at and above RESLEN, every byte of
which holds some value (R141; that it counts as holding one, and not as uninitialised, is the model's
reading, DEDUCED in log entry 4). -/
def Obligations.DecodeReturnsTheFirstMatch : Prop :=
  ∀ (s : State) (k : Nat), s.pending = some .decode → s.params.ok = true →
    s.npix.toNat ≤ s.params.pixCap.toNat → k < 3 * s.npix.toNat / 8 →
    s.pix.initialised (8 * (k + 1)) → s.pix.firstMatch k →
    ∃ t, exec .decode s = .next t ∧
      t = { s with status := t.status, reslen := t.reslen, pending := none, msg := t.msg,
                   delay := 0, draws := t.draws } ∧
      s.statusBecomes t false 1 ∧ t.reslen.toNat = k - 8 ∧
      (∀ i < k - 8, t.msg.get i = some (s.pix.unit i)) ∧ ∀ i, t.msg.get i ≠ none

/-- R136: if no unit k < K is a match, DECODE completes with NOT_FOUND (2) and RESLEN = 0. Every
MSGBUF byte then holds some value (R141; that it counts as holding one, and not as uninitialised, is
the model's reading, DEDUCED in log entry 4). -/
def Obligations.DecodeReportsNotFound : Prop :=
  ∀ s : State, s.pending = some .decode → s.npix.toNat ≤ s.params.pixCap.toNat →
    s.pix.initialised (8 * (3 * s.npix.toNat / 8)) →
    (∀ k < 3 * s.npix.toNat / 8, ¬ s.pix.delimEndsAt k) →
    ∃ t, exec .decode s = .next t ∧
      t = { s with status := t.status, reslen := 0, pending := none, msg := t.msg, delay := 0,
                   draws := t.draws } ∧
      s.statusBecomes t false 2 ∧ ∀ i, t.msg.get i ≠ none

/-- R138: DECODE never writes PIXMEM, NPIX, MSGLEN or MAXCHARS; nor the parameters, nor anything of
the host's. -/
def Obligations.DecodeNeverWrites : Prop :=
  ∀ s t : State, exec .decode s = .next t →
    t.pix = s.pix ∧ t.npix = s.npix ∧ t.msglen = s.msglen ∧ t.maxchars = s.maxchars ∧
      t.params = s.params ∧ t.host = s.host ∧ t.responses = s.responses

/-- R142 (the spec's own inference from R133 and R134): with fewer than 24 pixels DECODE completes
NOT_FOUND whatever PIXMEM holds. -/
def Obligations.DecodeOfASmallCarrier : Prop :=
  ∀ s : State, s.pending = some .decode → s.npix.toNat ≤ s.params.pixCap.toNat →
    s.npix.toNat < 24 →
    (s.params.uninit = .anyValue ∨ s.pix.initialised (8 * (3 * s.npix.toNat / 8))) →
    ∃ t, exec .decode s = .next t ∧ t.result = 2 ∧ t.busy = false ∧ t.reslen = 0

/-- R147 (the spec's own inference from R134 and R18): a carrier whose LSBs are all 0, or all 1,
holds no message. -/
def Obligations.DecodeOfUniformLsbs : Prop :=
  ∀ (s : State) (b : Bool), s.pending = some .decode →
    s.npix.toNat ≤ s.params.pixCap.toNat → s.pix.initialised (3 * s.npix.toNat) →
    (∀ a < 3 * s.npix.toNat, s.pix.lsb a = b) →
    ∃ t, exec .decode s = .next t ∧ t.result = 2 ∧ t.busy = false ∧ t.reslen = 0

/-- R139 (the spec's own inference from R130): DECODE is a pure function of NPIX and of bit 0 of the
carrier's bytes. -/
def Obligations.DecodeIsPure : Prop :=
  ∀ s s' : State, s.pending = some .decode → s'.pending = some .decode →
    s.params.ok = true → s'.params.ok = true → s'.npix = s.npix →
    s.npix.toNat ≤ s.params.pixCap.toNat → s'.npix.toNat ≤ s'.params.pixCap.toNat →
    s.pix.initialised (3 * s.npix.toNat) → s'.pix.initialised (3 * s.npix.toNat) →
    (∀ a < 3 * s.npix.toNat, s'.pix.lsb a = s.pix.lsb a) →
    ∃ t t', exec .decode s = .next t ∧ exec .decode s' = .next t' ∧ t'.result = t.result ∧
      t'.reslen = t.reslen ∧ ∀ i < t.reslen.toNat, t'.msg.get i = t.msg.get i

/-- R144 with R133 and R203: whatever NPIX ≤ PIX_CAP and PIXMEM hold, DECODE completes with OK and
RESLEN ≤ max(K − 9, 0), or with NOT_FOUND and RESLEN = 0, unless under UNINIT_POLICY = fault it
reads a byte of its carrier that was never written. -/
def Obligations.DecodeIsRobust : Prop :=
  ∀ s : State, s.pending = some .decode → s.params.ok = true →
    s.npix.toNat ≤ s.params.pixCap.toNat →
    (∃ t, exec .decode s = .next t ∧ t.pending = none ∧
      ((t.result = 1 ∧ t.reslen.toNat ≤ 3 * s.npix.toNat / 8 - 9) ∨
        (t.result = 2 ∧ t.reslen = 0))) ∨
    (s.params.uninit = .fault ∧ ∃ a, a < 3 * s.npix.toNat ∧ s.pix.get a = none ∧
      exec .decode s = .fault (.uninitialisedRead .pix a))

/-! ### The round trip (41_decoder.md) -/

/-- R145 (the spec's own inference from R104 and R134): from an idle state with N ≤ PIX_CAP, L ≤
MSG_CAP and 8 × (L + 9) ≤ 3 × N, ENCODE and then DECODE give the message back if and only if DELIM
is not a substring of M ++ DELIM[0..8). -/
def Obligations.RoundTrip : Prop :=
  ∀ s : State, s.pending = none → s.params.ok = true →
    s.npix.toNat ≤ s.params.pixCap.toNat → s.msglen.toNat ≤ s.params.msgCap.toNat →
    8 * (s.msglen.toNat + 9) ≤ 3 * s.npix.toNat →
    s.msg.initialised s.msglen.toNat → s.pix.initialised (8 * (s.msglen.toNat + 9)) →
    ∃ a b c d, exec .encode s = .next a ∧ exec .encode a = .next b ∧ b.result = 1 ∧
      exec .decode b = .next c ∧ exec .decode c = .next d ∧
      ((d.result = 1 ∧ d.reslen = s.msglen ∧
          ∀ i < s.msglen.toNat, d.msg.get i = s.msg.get i) ↔
        ¬ delim <:+: s.msg.prefixBytes s.msglen.toNat ++ delim.take 8)

/-- R146 (the spec's own inference from R145): if DELIM occurs in M ++ DELIM[0..8), first at byte p,
then p < L and DECODE returns OK with the strict prefix M[0..p). -/
def Obligations.RoundTripStopsAtTheFirstDelimiter : Prop :=
  ∀ (s : State) (p : Nat), s.pending = none → s.params.ok = true →
    s.npix.toNat ≤ s.params.pixCap.toNat → s.msglen.toNat ≤ s.params.msgCap.toNat →
    8 * (s.msglen.toNat + 9) ≤ 3 * s.npix.toNat →
    s.msg.initialised s.msglen.toNat → s.pix.initialised (8 * (s.msglen.toNat + 9)) →
    delim <+: (s.msg.prefixBytes s.msglen.toNat ++ delim.take 8).drop p →
    (∀ q < p, ¬ delim <+: (s.msg.prefixBytes s.msglen.toNat ++ delim.take 8).drop q) →
    p < s.msglen.toNat ∧
    ∃ a b c d, exec .encode s = .next a ∧ exec .encode a = .next b ∧
      exec .decode b = .next c ∧ exec .decode c = .next d ∧ d.result = 1 ∧
      d.reslen.toNat = p ∧ ∀ i < p, d.msg.get i = s.msg.get i

/-- R216: DECODE finds the message of an ENCODE with another NPIX too, if it forms L + 9 units and the
round-trip condition holds. -/
def Obligations.RoundTripWithAnotherNpix : Prop :=
  ∀ (s : State) (n : Word), s.pending = none → s.params.ok = true →
    s.npix.toNat ≤ s.params.pixCap.toNat → s.msglen.toNat ≤ s.params.msgCap.toNat →
    8 * (s.msglen.toNat + 9) ≤ 3 * s.npix.toNat →
    s.msg.initialised s.msglen.toNat → s.pix.initialised (8 * (s.msglen.toNat + 9)) →
    ¬ delim <:+: s.msg.prefixBytes s.msglen.toNat ++ delim.take 8 →
    n.toNat ≤ s.params.pixCap.toNat → s.msglen.toNat + 9 ≤ 3 * n.toNat / 8 →
    ∃ a b c d, exec .encode s = .next a ∧ exec .encode a = .next b ∧
      exec .decode { b with npix := n } = .next c ∧ exec .decode c = .next d ∧ d.result = 1 ∧
      d.reslen = s.msglen ∧ ∀ i < s.msglen.toNat, d.msg.get i = s.msg.get i

/-! ### The host port (20_memory.md) -/

/-- R56: an address that does not exist is answered ERR(RANGE), before any other check, and nothing
else happens. -/
def Obligations.RangeIsCheckedFirst : Prop :=
  ∀ (s : State) (x : Transaction) (rest : List HostEvent), s.hostNext (.transaction x) rest →
    (∃ (r v : Word), 8 ≤ r.toNat ∧ (x = .regRead r ∨ x = .regWrite r v)) ∨
    (∃ (a : Word) (v : Byte), 3 * s.params.pixCap.toNat ≤ a.toNat ∧
      (x = .pixRead a ∨ x = .pixWrite a v)) ∨
    (∃ (a : Word) (v : Byte), s.params.msgCap.toNat ≤ a.toNat ∧
      (x = .msgRead a ∨ x = .msgWrite a v)) →
    step s = .next (respond (.err .range) (takeEvent rest s))

/-- R57: while BUSY = 1, every transaction on an existing address except RegRead(STATUS) is answered
ERR(BUSY), writes to read-only registers included; RegRead(STATUS) is answered with STATUS. -/
def Obligations.BusyLocksTheHostOut : Prop :=
  ∀ (s : State) (x : Transaction) (rest : List HostEvent), s.hostNext (.transaction x) rest →
    s.busy = true → inRange s x = true →
    (x ≠ .regRead 1 → step s = .next (respond (.err .busy) (takeEvent rest s))) ∧
    (x = .regRead 1 → step s = .next (respond (.ok s.status) (takeEvent rest s)))

/-- R58: idle, a write to a read-only register is answered ERR(READONLY) and changes nothing;
RegRead(CMD) is answered OK(0). -/
def Obligations.ReadOnlyRegistersRejectWrites : Prop :=
  ∀ (s : State) (x : Transaction) (rest : List HostEvent), s.hostNext (.transaction x) rest →
    s.busy = false →
    (∀ r v : Word, (r = 1 ∨ r = 4 ∨ r = 5 ∨ r = 6 ∨ r = 7) → x = .regWrite r v →
      step s = .next (respond (.err .readOnly) (takeEvent rest s))) ∧
    (x = .regRead 0 → step s = .next (respond (.ok 0) (takeEvent rest s)))

/-- R54: every transaction returns exactly one response, and one that returns ERR changes no state. -/
def Obligations.ErrorsChangeNoState : Prop :=
  ∀ (s t : State) (x : Transaction) (rest : List HostEvent), s.hostNext (.transaction x) rest →
    step s = .next t →
    ∃ r, t.responses = s.responses ++ [⟨r, false⟩] ∧
      ((∃ v, r = .ok v) ∨ ∃ k, r = .err k ∧ t = respond (.err k) (takeEvent rest s))

/-- R51 with the register table R20: what RegRead returns, register by register. -/
def Obligations.RegisterReads : Prop :=
  ∀ (s : State) (r : Word) (rest : List HostEvent),
    s.hostNext (.transaction (.regRead r)) rest → s.busy = false → r.toNat < 8 →
    ∃ v, step s = .next (respond (.ok v) (takeEvent rest s)) ∧
      (r = 0 → v = 0) ∧ (r = 1 → v = s.status) ∧ (r = 2 → v = s.npix) ∧ (r = 3 → v = s.msglen) ∧
      (r = 4 → v = s.reslen) ∧ (r = 5 → v = s.maxchars) ∧ (r = 6 → v = s.params.pixCap) ∧
      (r = 7 → v = s.params.msgCap)

/-- R28, R29: RegWrite(NPIX, v) and RegWrite(MSGLEN, v) store any 32-bit v unchanged, and nothing
else. -/
def Obligations.CountsStoreAnyValue : Prop :=
  ∀ (s : State) (v : Word) (rest : List HostEvent), s.busy = false →
    (s.hostNext (.transaction (.regWrite 2 v)) rest →
      step s = .next (respond (.ok 0) { takeEvent rest s with npix := v })) ∧
    (s.hostNext (.transaction (.regWrite 3 v)) rest →
      step s = .next (respond (.ok 0) { takeEvent rest s with msglen := v }))

/-- R52: PixRead returns the byte, PixWrite sets it, leaves every other byte, and returns OK(0). That
the 8-bit value is zero-extended to 32 bits is the model's choice (log entry 12). -/
def Obligations.HostAccessToPixmem : Prop :=
  ∀ (s : State) (a : Word) (rest : List HostEvent), s.busy = false →
    a.toNat < 3 * s.params.pixCap.toNat →
    (∀ v, s.hostNext (.transaction (.pixRead a)) rest → s.pix.get a.toNat = some v →
      step s = .next (respond (.ok (v.setWidth 32)) (takeEvent rest s))) ∧
    (∀ v, s.hostNext (.transaction (.pixWrite a v)) rest →
      ∃ t, step s = .next (respond (.ok 0) t) ∧ t = { takeEvent rest s with pix := t.pix } ∧
        ∀ b, t.pix.get b = if b = a.toNat then some v else s.pix.get b)

/-- R53: MsgRead returns the byte, MsgWrite sets it, leaves every other byte, and returns OK(0). That
the 8-bit value is zero-extended to 32 bits is the model's choice (log entry 12). -/
def Obligations.HostAccessToMsgbuf : Prop :=
  ∀ (s : State) (a : Word) (rest : List HostEvent), s.busy = false →
    a.toNat < s.params.msgCap.toNat →
    (∀ v, s.hostNext (.transaction (.msgRead a)) rest → s.msg.get a.toNat = some v →
      step s = .next (respond (.ok (v.setWidth 32)) (takeEvent rest s))) ∧
    (∀ v, s.hostNext (.transaction (.msgWrite a v)) rest →
      ∃ t, step s = .next (respond (.ok 0) t) ∧ t = { takeEvent rest s with msg := t.msg } ∧
        ∀ b, t.msg.get b = if b = a.toNat then some v else s.msg.get b)

/-- R203 for the host: a read of a byte never written is a fault under UNINIT_POLICY = fault, and
returns some byte under any value. That the byte is zero-extended to 32 bits is the model's choice
(log entry 12). -/
def Obligations.HostReadOfUninitialisedByte : Prop :=
  ∀ (s : State) (sp : Space) (a : Word) (rest : List HostEvent), s.busy = false →
    a.toNat < s.extent sp → (s.mem sp).get a.toNat = none →
    s.hostNext (.transaction (match sp with | .pix => .pixRead a | .msg => .msgRead a)) rest →
    (s.params.uninit = .fault → step s = .fault (.uninitialisedRead sp a.toNat)) ∧
    (s.params.uninit = .anyValue → ∃ (v : Byte) (n : Nat),
      step s = .next (respond (.ok (v.setWidth 32)) { takeEvent rest s with draws := n }))

/-- R65: no read has a side effect on the block. -/
def Obligations.ReadsHaveNoSideEffect : Prop :=
  ∀ (s t : State) (x : Transaction) (rest : List HostEvent), s.hostNext (.transaction x) rest →
    (∃ a, x = .regRead a ∨ x = .pixRead a ∨ x = .msgRead a) → step s = .next t → s.sameBlock t

/-- While BUSY = 1 the host's turns change nothing of the block, resets apart: a command is atomic
from the host's viewpoint. -/
def Obligations.HostTurnsWhileBusyChangeNothing : Prop :=
  ∀ s t : State, s.busy = true → engineTurn s = none → ¬ s.resetsNext → step s = .next t →
    s.sameBlock t

/-! ### Host notation (30_encoding.md) -/

/-- R92: `wait` is a RegRead(STATUS) that is repeated while bit 0 of the value is 1. A poll that is
repeated leaves the observation of a run as it is (R168, log entry 20). -/
def Obligations.WaitPollsStatus : Prop :=
  ∀ (s : State) (rest : List HostEvent), s.hostNext .wait rest →
    (s.status.getLsbD 0 = true → ∃ t, step s = .next t ∧
      t = { takeEvent rest s with
        host := .wait :: rest, responses := s.responses ++ [⟨.ok s.status, true⟩] } ∧
      s.sameObservation t) ∧
    (s.status.getLsbD 0 = false →
      step s = .next (respond (.ok s.status) (takeEvent rest s)))

/-- R95: `getmsg` reads RESLEN and then that many bytes of MSGBUF, from address 0 on; while BUSY its
RegRead is rejected like any other. That no MsgRead follows a rejected RegRead is the model's choice
(log entry 11). -/
def Obligations.GetmsgReadsTheMessage : Prop :=
  ∀ (s : State) (rest : List HostEvent), s.hostNext .getmsg rest →
    (s.busy = false → step s = .next
      { respond (.ok s.reslen) (takeEvent rest s) with
        host := (List.range s.reslen.toNat).map
          (fun k => .transaction (.msgRead (BitVec.ofNat 32 k))) ++ rest }) ∧
    (s.busy = true → step s = .next (respond (.err .busy) (takeEvent rest s)))

/-- R93: `setpix` and `fillpix` are one PixWrite per channel, channel c of pixel i at address 3i + c,
and `fillpix` ends with NPIX; the addresses and the count are exact wherever they are below 2^32. That
larger ones are taken modulo 2^32 is the model's choice (log entry 25). -/
def Obligations.FillpixWritesEveryChannel : Prop :=
  ∀ (n : Nat) (r g b : Byte),
    (∀ i, setpix i r g b = [.transaction (.pixWrite (BitVec.ofNat 32 (3 * i)) r),
      .transaction (.pixWrite (BitVec.ofNat 32 (3 * i + 1)) g),
      .transaction (.pixWrite (BitVec.ofNat 32 (3 * i + 2)) b)]) ∧
    (∀ i, 3 * i + 2 < 2 ^ 32 → ∃ x y z : Word, x.toNat = 3 * i ∧ y.toNat = 3 * i + 1 ∧
      z.toNat = 3 * i + 2 ∧ setpix i r g b = [.transaction (.pixWrite x r),
        .transaction (.pixWrite y g), .transaction (.pixWrite z b)]) ∧
    (fillpix n r g b).length = 3 * n + 1 ∧
    (∀ i < n, ∀ c < 3, (fillpix n r g b)[3 * i + c]? = (setpix i r g b)[c]?) ∧
    (fillpix n r g b)[3 * n]? = some (.transaction (.regWrite 2 (BitVec.ofNat 32 n))) ∧
    (n < 2 ^ 32 → ∃ v : Word, v.toNat = n ∧
      (fillpix n r g b)[3 * n]? = some (.transaction (.regWrite 2 v)))

/-- R94 with R19 and R182: `setmsg` of code points up to 255 is one MsgWrite per character and then
MSGLEN, each address and the length exact below 2^32; the bytes written are those whose characters
(R19) are the string, and every byte string is that of its own characters; what a `getmsg` that reads
such bytes back recovers is the string. A string with a code point above 255 has no expansion and is
rejected with InvalidCharacter. That the error names such a code point is the model's choice (log
entry 22), and so is that addresses and a length of 2^32 or more are taken modulo 2^32 (log entry 25).
-/
def Obligations.SetmsgExpandsOrRejects : Prop :=
  ∀ cs : List Nat,
    ((∀ c ∈ cs, c ≤ 255) → ∃ es, setmsg cs = .ok es ∧ es.length = cs.length + 1 ∧
      (∀ k, (h : k < cs.length) → es[k]? =
        some (.transaction (.msgWrite (BitVec.ofNat 32 k) (BitVec.ofNat 8 cs[k])))) ∧
      es[cs.length]? = some (.transaction (.regWrite 3 (BitVec.ofNat 32 cs.length))) ∧
      (cs.length < 2 ^ 32 → (∀ k, (h : k < cs.length) → ∃ (x : Word) (v : Byte), x.toNat = k ∧
        v.toNat = cs[k] ∧ es[k]? = some (.transaction (.msgWrite x v))) ∧
        ∃ l : Word, l.toNat = cs.length ∧
          es[cs.length]? = some (.transaction (.regWrite 3 l)))) ∧
    (∀ c ∈ cs, 255 < c → ∃ c' ∈ cs, 255 < c' ∧ setmsg cs = .error (.invalidCharacter c')) ∧
    (∀ bs, bytesOfString cs = .ok bs → stringOfBytes bs = cs ∧
      (cs.length < 2 ^ 32 → messageOfGetmsg (.ok (BitVec.ofNat 32 cs.length) ::
        bs.map fun b => .ok (b.setWidth 32)) = some cs)) ∧
    ∀ bs : List Byte, bytesOfString (stringOfBytes bs) = .ok bs

/-! ### Reset (70_reset_and_hazards.md) -/

/-- R200, R201, R204: what `State.reset` holds, register by register and byte by byte. -/
def Obligations.ResetStateHoldsTheResetValues : Prop :=
  regValue State.reset .cmd = 0 ∧ regValue State.reset .status = 0 ∧
    regValue State.reset .npix = 0 ∧ regValue State.reset .msglen = 0 ∧
    regValue State.reset .reslen = 0 ∧ regValue State.reset .maxchars = 0 ∧
    regValue State.reset .pixcap = State.reset.params.pixCap ∧
    regValue State.reset .msgcap = State.reset.params.msgCap ∧ State.reset.pending = none ∧
    ∀ a, State.reset.pix.get a = none ∧ State.reset.msg.get a = none

/-- R200, R201: a power-on reset sets every control register to its reset value, ends the command in
flight and leaves every byte of both memories uninitialised. -/
def Obligations.PowerOnResetClearsTheBlock : Prop :=
  ∀ (s : State) (rest : List HostEvent), s.hostNext .powerOnReset rest →
    ∃ t, step s = .next t ∧ t.status = 0 ∧ t.npix = 0 ∧ t.msglen = 0 ∧ t.reslen = 0 ∧
      t.maxchars = 0 ∧ t.pending = none ∧ t.params = s.params ∧
      ∀ a, t.pix.get a = none ∧ t.msg.get a = none

/-- R202 with R200: a warm reset resets the registers and keeps both memories, but for the carrier of
an ENCODE in flight and all of MSGBUF under a DECODE in flight, which become uninitialised. -/
def Obligations.WarmResetKeepsTheMemories : Prop :=
  ∀ (s : State) (rest : List HostEvent), s.hostNext .warmReset rest → s.pix.fill = .uninit →
    ∃ t, step s = .next t ∧ t.status = 0 ∧ t.npix = 0 ∧ t.msglen = 0 ∧ t.reslen = 0 ∧
      t.maxchars = 0 ∧ t.pending = none ∧ t.params = s.params ∧
      (s.pending = none → t.pix = s.pix ∧ t.msg = s.msg) ∧
      (s.pending = some .encode → t.msg = s.msg ∧
        ∀ a, t.pix.get a = if a < 3 * s.npix.toNat then none else s.pix.get a) ∧
      (s.pending = some .decode → t.pix = s.pix ∧ ∀ a, t.msg.get a = none)

/-! ### The whole machine -/

/-- The reset state meets the invariant. -/
def Obligations.ResetMeetsTheInvariant : Prop := State.reset.Inv

/-- Every step keeps the invariant: canonical memories within their spaces, a legal STATUS, pending
none exactly when BUSY = 0 (R40), and operands that still pass the check while a command is in flight
(R84). -/
def Obligations.StepKeepsTheInvariant : Prop :=
  ∀ s t : State, s.Inv → step s = .next t → t.Inv

/-- R77: no step of a state that meets the invariant accesses an address that does not exist. -/
def Obligations.EngineAddressesAreInRange : Prop :=
  ∀ (s : State) (sp : Space) (a : Nat), s.Inv → step s ≠ .fault (.addressOutOfRange sp a)

/-- Nothing is refused, and a state that meets the invariant always has a next state, but for a read
of a byte never written under UNINIT_POLICY = fault. -/
def Obligations.StepStopsOnlyAtUninitialisedReads : Prop :=
  (∀ (s : State) (r : Refusal), step s ≠ .refused r) ∧
  ∀ s : State, s.Inv → (∃ t, step s = .next t) ∨
    ∃ sp a, step s = .fault (.uninitialisedRead sp a) ∧ s.params.uninit = .fault ∧
      (s.mem sp).get a = none ∧ a < s.extent sp

/-- R32, R33, R44: no step changes the parameters, which PIXCAP and MSGCAP read. -/
def Obligations.ParametersNeverChange : Prop :=
  ∀ s t : State, step s = .next t → t.params = s.params

/-- R20, R23, R25, R26, R28 to R33: a control register changes only by a reset or by its own writers.
STATUS: the completion of a command, or a CMD write of a word other than NOP's while idle. RESLEN: the
completion of DECODE. MAXCHARS: the completion of ENCODE. NPIX and MSGLEN: the host's own RegWrite.
CMD, PIXCAP and MSGCAP never change. -/
def Obligations.ControlRegistersChangeOnlyByTheirWriters : Prop :=
  ∀ s t : State, s.Inv → step s = .next t → ¬ s.resetsNext →
    (t.reslen ≠ s.reslen → engineTurn s = some .decode) ∧
    (t.maxchars ≠ s.maxchars → engineTurn s = some .encode) ∧
    (t.npix ≠ s.npix → ∃ rest, s.hostNext (.transaction (.regWrite 2 t.npix)) rest) ∧
    (t.msglen ≠ s.msglen → ∃ rest, s.hostNext (.transaction (.regWrite 3 t.msglen)) rest) ∧
    (t.status ≠ s.status → (∃ c, engineTurn s = some c) ∨
      (s.busy = false ∧ ∃ w rest, s.hostNext (.transaction (.regWrite 0 w)) rest ∧
        w ≠ 0x00000000#32)) ∧
    regValue t .cmd = regValue s .cmd ∧ regValue t .pixcap = regValue s .pixcap ∧
    regValue t .msgcap = regValue s .msgcap

/-- R66: a byte keeps the last value written to it. PIXMEM is written only by ENCODE's completion and
by a PixWrite to that byte, MSGBUF only by DECODE's completion and by a MsgWrite to that byte; a reset
can change both. -/
def Obligations.BytesPersist : Prop :=
  ∀ (s t : State) (a : Nat), s.Inv → step s = .next t → ¬ s.resetsNext →
    (t.pix.get a ≠ s.pix.get a → engineTurn s = some .encode ∨
      ∃ x v rest, s.hostNext (.transaction (.pixWrite x v)) rest ∧ x.toNat = a ∧
        t.pix.get a = some v) ∧
    (t.msg.get a ≠ s.msg.get a → engineTurn s = some .decode ∨
      ∃ x v rest, s.hostNext (.transaction (.msgWrite x v)) rest ∧ x.toNat = a ∧
        t.msg.get a = some v)

/-- R27: STATUS bits 3:1 and 31:8 always read 0, and no event writes them, but that a reset gives
STATUS its reset value 0. -/
def Obligations.ReservedStatusBitsAreNeverWritten : Prop :=
  (∀ s t : State, step s = .next t →
    t.status &&& 0xFFFFFF0E#32 = s.status &&& 0xFFFFFF0E#32 ∨ (s.resetsNext ∧ t.status = 0)) ∧
  ∀ (s : State) (rest : List HostEvent), s.Inv → s.hostNext (.transaction (.regRead 1)) rest →
    ∃ v, step s = .next (respond (.ok v) (takeEvent rest s)) ∧ v &&& 0xFFFFFF0E#32 = 0

/-- R26, R180: RESULT keeps its value until the next command is accepted, rejected or completed, or a
reset; a NOP leaves it. -/
def Obligations.ResultChangesOnlyWithACommand : Prop :=
  ∀ s t : State, step s = .next t → ¬ s.resetsNext → t.result ≠ s.result →
    (∃ c, engineTurn s = some c) ∨
      ∃ w rest, s.hostNext (.transaction (.regWrite 0 w)) rest ∧ w ≠ 0x00000000#32

/-- R179: what a failure changes. ILLEGAL_COMMAND and BAD_CONFIG change STATUS.RESULT alone;
CAPACITY_EXCEEDED also BUSY and MAXCHARS; NOT_FOUND also BUSY, RESLEN (to 0) and MSGBUF. -/
def Obligations.FailuresChangeOnlyWhatIsListed : Prop :=
  (∀ (i : Instr) (s t : State), s.pending = none → exec i s = .next t →
    t.result = 4 ∨ t.result = 5 →
    t = { s with status := t.status } ∧ s.statusBecomes t s.busy t.result) ∧
  (∀ s t : State, s.pending = some .encode → exec .encode s = .next t → t.result ≠ 1 →
    t = { s with status := t.status, maxchars := t.maxchars, pending := none, delay := 0,
                 draws := t.draws } ∧ s.statusBecomes t false 3) ∧
  ∀ s t : State, s.pending = some .decode → exec .decode s = .next t → t.result ≠ 1 →
    t = { s with status := t.status, reslen := 0, msg := t.msg, pending := none, delay := 0,
                 draws := t.draws } ∧ s.statusBecomes t false 2

/-- R167, R168: from a state with a command in flight on which the host waits, the two runs in which
the completion comes after `d` and after `d'` further turns of the host end the `wait` with the same
observation. Turns of the host are how the model counts the unspecified delay (R215, log entry 3).
That the two runs draw the same bytes where the command reads uninitialised ones (under any value)
is so because the model numbers its free values by a counter that polls do not advance (log entries
5 and 6). -/
def Obligations.LatencyIsNotObserved : Prop :=
  ∀ (s t : State) (c : Command) (rest : List HostEvent) (d d' : Nat),
    s.busy = true → s.pending = some c → s.host = .wait :: rest → exec c.instr s = .next t →
    ∃ (n n' : Nat) (u u' : State), Sys2Proof.core.run n { s with delay := d } = .next u ∧
      Sys2Proof.core.run n' { s with delay := d' } = .next u' ∧
      u.sameObservation u' ∧ u.pending = none ∧ u'.pending = none ∧
      u.host = rest ∧ u'.host = rest
end

