-- ==== Sys2Proof/Laws/State.lean ====
section
/-! SUPPORT. One lemma per field per update of State, each true by `rfl`, so that no later proof unfolds
a record update. -/

namespace Sys2Proof.Machine

variable (s : State)

/-! ### `recordResult` -/
@[simp] theorem recordResult_params (c : ResultCode) : (recordResult c s).params = s.params := rfl
@[simp] theorem recordResult_status (c : ResultCode) : (recordResult c s).status = withResult c s.status := rfl
@[simp] theorem recordResult_npix (c : ResultCode) : (recordResult c s).npix = s.npix := rfl
@[simp] theorem recordResult_msglen (c : ResultCode) : (recordResult c s).msglen = s.msglen := rfl
@[simp] theorem recordResult_reslen (c : ResultCode) : (recordResult c s).reslen = s.reslen := rfl
@[simp] theorem recordResult_maxchars (c : ResultCode) : (recordResult c s).maxchars = s.maxchars := rfl
@[simp] theorem recordResult_pending (c : ResultCode) : (recordResult c s).pending = s.pending := rfl
@[simp] theorem recordResult_pix (c : ResultCode) : (recordResult c s).pix = s.pix := rfl
@[simp] theorem recordResult_msg (c : ResultCode) : (recordResult c s).msg = s.msg := rfl
@[simp] theorem recordResult_delay (c : ResultCode) : (recordResult c s).delay = s.delay := rfl
@[simp] theorem recordResult_draws (c : ResultCode) : (recordResult c s).draws = s.draws := rfl
@[simp] theorem recordResult_host (c : ResultCode) : (recordResult c s).host = s.host := rfl
@[simp] theorem recordResult_responses (c : ResultCode) : (recordResult c s).responses = s.responses := rfl

/-! ### `accept` -/
@[simp] theorem accept_params (c : Command) : (accept c s).params = s.params := rfl
@[simp] theorem accept_status (c : Command) : (accept c s).status = withResult .none (withBusy true s.status) := rfl
@[simp] theorem accept_npix (c : Command) : (accept c s).npix = s.npix := rfl
@[simp] theorem accept_msglen (c : Command) : (accept c s).msglen = s.msglen := rfl
@[simp] theorem accept_reslen (c : Command) : (accept c s).reslen = s.reslen := rfl
@[simp] theorem accept_maxchars (c : Command) : (accept c s).maxchars = s.maxchars := rfl
@[simp] theorem accept_pending (c : Command) : (accept c s).pending = some c := rfl
@[simp] theorem accept_pix (c : Command) : (accept c s).pix = s.pix := rfl
@[simp] theorem accept_msg (c : Command) : (accept c s).msg = s.msg := rfl
@[simp] theorem accept_delay (c : Command) : (accept c s).delay = Config.latency s.draws := rfl
@[simp] theorem accept_draws (c : Command) : (accept c s).draws = s.draws + 1 := rfl
@[simp] theorem accept_host (c : Command) : (accept c s).host = s.host := rfl
@[simp] theorem accept_responses (c : Command) : (accept c s).responses = s.responses := rfl

/-! ### `complete` -/
@[simp] theorem complete_params (c : ResultCode) : (complete c s).params = s.params := rfl
@[simp] theorem complete_status (c : ResultCode) : (complete c s).status = withBusy false (withResult c s.status) := rfl
@[simp] theorem complete_npix (c : ResultCode) : (complete c s).npix = s.npix := rfl
@[simp] theorem complete_msglen (c : ResultCode) : (complete c s).msglen = s.msglen := rfl
@[simp] theorem complete_reslen (c : ResultCode) : (complete c s).reslen = s.reslen := rfl
@[simp] theorem complete_maxchars (c : ResultCode) : (complete c s).maxchars = s.maxchars := rfl
@[simp] theorem complete_pending (c : ResultCode) : (complete c s).pending = none := rfl
@[simp] theorem complete_pix (c : ResultCode) : (complete c s).pix = s.pix := rfl
@[simp] theorem complete_msg (c : ResultCode) : (complete c s).msg = s.msg := rfl
@[simp] theorem complete_delay (c : ResultCode) : (complete c s).delay = 0 := rfl
@[simp] theorem complete_draws (c : ResultCode) : (complete c s).draws = s.draws := rfl
@[simp] theorem complete_host (c : ResultCode) : (complete c s).host = s.host := rfl
@[simp] theorem complete_responses (c : ResultCode) : (complete c s).responses = s.responses := rfl

/-! ### `recordMaxchars` -/
@[simp] theorem recordMaxchars_params : (recordMaxchars s).params = s.params := rfl
@[simp] theorem recordMaxchars_status : (recordMaxchars s).status = s.status := rfl
@[simp] theorem recordMaxchars_npix : (recordMaxchars s).npix = s.npix := rfl
@[simp] theorem recordMaxchars_msglen : (recordMaxchars s).msglen = s.msglen := rfl
@[simp] theorem recordMaxchars_reslen : (recordMaxchars s).reslen = s.reslen := rfl
@[simp] theorem recordMaxchars_maxchars : (recordMaxchars s).maxchars = BitVec.ofNat 32 s.units := rfl
@[simp] theorem recordMaxchars_pending : (recordMaxchars s).pending = s.pending := rfl
@[simp] theorem recordMaxchars_pix : (recordMaxchars s).pix = s.pix := rfl
@[simp] theorem recordMaxchars_msg : (recordMaxchars s).msg = s.msg := rfl
@[simp] theorem recordMaxchars_delay : (recordMaxchars s).delay = s.delay := rfl
@[simp] theorem recordMaxchars_draws : (recordMaxchars s).draws = s.draws := rfl
@[simp] theorem recordMaxchars_host : (recordMaxchars s).host = s.host := rfl
@[simp] theorem recordMaxchars_responses : (recordMaxchars s).responses = s.responses := rfl

/-! ### `scratchMessage` -/
@[simp] theorem scratchMessage_params : (scratchMessage s).params = s.params := rfl
@[simp] theorem scratchMessage_status : (scratchMessage s).status = s.status := rfl
@[simp] theorem scratchMessage_npix : (scratchMessage s).npix = s.npix := rfl
@[simp] theorem scratchMessage_msglen : (scratchMessage s).msglen = s.msglen := rfl
@[simp] theorem scratchMessage_reslen : (scratchMessage s).reslen = s.reslen := rfl
@[simp] theorem scratchMessage_maxchars : (scratchMessage s).maxchars = s.maxchars := rfl
@[simp] theorem scratchMessage_pending : (scratchMessage s).pending = s.pending := rfl
@[simp] theorem scratchMessage_pix : (scratchMessage s).pix = s.pix := rfl
@[simp] theorem scratchMessage_msg : (scratchMessage s).msg = Memory.scratch s.draws := rfl
@[simp] theorem scratchMessage_delay : (scratchMessage s).delay = s.delay := rfl
@[simp] theorem scratchMessage_draws : (scratchMessage s).draws = s.draws + 1 := rfl
@[simp] theorem scratchMessage_host : (scratchMessage s).host = s.host := rfl
@[simp] theorem scratchMessage_responses : (scratchMessage s).responses = s.responses := rfl

/-! ### `recordReslen` -/
@[simp] theorem recordReslen_params (n : Nat) : (recordReslen n s).params = s.params := rfl
@[simp] theorem recordReslen_status (n : Nat) : (recordReslen n s).status = s.status := rfl
@[simp] theorem recordReslen_npix (n : Nat) : (recordReslen n s).npix = s.npix := rfl
@[simp] theorem recordReslen_msglen (n : Nat) : (recordReslen n s).msglen = s.msglen := rfl
@[simp] theorem recordReslen_reslen (n : Nat) : (recordReslen n s).reslen = BitVec.ofNat 32 n := rfl
@[simp] theorem recordReslen_maxchars (n : Nat) : (recordReslen n s).maxchars = s.maxchars := rfl
@[simp] theorem recordReslen_pending (n : Nat) : (recordReslen n s).pending = s.pending := rfl
@[simp] theorem recordReslen_pix (n : Nat) : (recordReslen n s).pix = s.pix := rfl
@[simp] theorem recordReslen_msg (n : Nat) : (recordReslen n s).msg = s.msg := rfl
@[simp] theorem recordReslen_delay (n : Nat) : (recordReslen n s).delay = s.delay := rfl
@[simp] theorem recordReslen_draws (n : Nat) : (recordReslen n s).draws = s.draws := rfl
@[simp] theorem recordReslen_host (n : Nat) : (recordReslen n s).host = s.host := rfl
@[simp] theorem recordReslen_responses (n : Nat) : (recordReslen n s).responses = s.responses := rfl

/-! ### `respond` -/
@[simp] theorem respond_params (r : Response) : (respond r s).params = s.params := rfl
@[simp] theorem respond_status (r : Response) : (respond r s).status = s.status := rfl
@[simp] theorem respond_npix (r : Response) : (respond r s).npix = s.npix := rfl
@[simp] theorem respond_msglen (r : Response) : (respond r s).msglen = s.msglen := rfl
@[simp] theorem respond_reslen (r : Response) : (respond r s).reslen = s.reslen := rfl
@[simp] theorem respond_maxchars (r : Response) : (respond r s).maxchars = s.maxchars := rfl
@[simp] theorem respond_pending (r : Response) : (respond r s).pending = s.pending := rfl
@[simp] theorem respond_pix (r : Response) : (respond r s).pix = s.pix := rfl
@[simp] theorem respond_msg (r : Response) : (respond r s).msg = s.msg := rfl
@[simp] theorem respond_delay (r : Response) : (respond r s).delay = s.delay := rfl
@[simp] theorem respond_draws (r : Response) : (respond r s).draws = s.draws := rfl
@[simp] theorem respond_host (r : Response) : (respond r s).host = s.host := rfl
@[simp] theorem respond_responses (r : Response) : (respond r s).responses = s.responses ++ [⟨r, false⟩] := rfl

/-! ### `respondRepeated` -/
@[simp] theorem respondRepeated_params (r : Response) : (respondRepeated r s).params = s.params := rfl
@[simp] theorem respondRepeated_status (r : Response) : (respondRepeated r s).status = s.status := rfl
@[simp] theorem respondRepeated_npix (r : Response) : (respondRepeated r s).npix = s.npix := rfl
@[simp] theorem respondRepeated_msglen (r : Response) : (respondRepeated r s).msglen = s.msglen := rfl
@[simp] theorem respondRepeated_reslen (r : Response) : (respondRepeated r s).reslen = s.reslen := rfl
@[simp] theorem respondRepeated_maxchars (r : Response) : (respondRepeated r s).maxchars = s.maxchars := rfl
@[simp] theorem respondRepeated_pending (r : Response) : (respondRepeated r s).pending = s.pending := rfl
@[simp] theorem respondRepeated_pix (r : Response) : (respondRepeated r s).pix = s.pix := rfl
@[simp] theorem respondRepeated_msg (r : Response) : (respondRepeated r s).msg = s.msg := rfl
@[simp] theorem respondRepeated_delay (r : Response) : (respondRepeated r s).delay = s.delay := rfl
@[simp] theorem respondRepeated_draws (r : Response) : (respondRepeated r s).draws = s.draws := rfl
@[simp] theorem respondRepeated_host (r : Response) : (respondRepeated r s).host = s.host := rfl
@[simp] theorem respondRepeated_responses (r : Response) : (respondRepeated r s).responses = s.responses ++ [⟨r, true⟩] := rfl

/-! ### `continueWith` -/
@[simp] theorem continueWith_params (es : List HostEvent) : (continueWith es s).params = s.params := rfl
@[simp] theorem continueWith_status (es : List HostEvent) : (continueWith es s).status = s.status := rfl
@[simp] theorem continueWith_npix (es : List HostEvent) : (continueWith es s).npix = s.npix := rfl
@[simp] theorem continueWith_msglen (es : List HostEvent) : (continueWith es s).msglen = s.msglen := rfl
@[simp] theorem continueWith_reslen (es : List HostEvent) : (continueWith es s).reslen = s.reslen := rfl
@[simp] theorem continueWith_maxchars (es : List HostEvent) : (continueWith es s).maxchars = s.maxchars := rfl
@[simp] theorem continueWith_pending (es : List HostEvent) : (continueWith es s).pending = s.pending := rfl
@[simp] theorem continueWith_pix (es : List HostEvent) : (continueWith es s).pix = s.pix := rfl
@[simp] theorem continueWith_msg (es : List HostEvent) : (continueWith es s).msg = s.msg := rfl
@[simp] theorem continueWith_delay (es : List HostEvent) : (continueWith es s).delay = s.delay := rfl
@[simp] theorem continueWith_draws (es : List HostEvent) : (continueWith es s).draws = s.draws := rfl
@[simp] theorem continueWith_host (es : List HostEvent) : (continueWith es s).host = es ++ s.host := rfl
@[simp] theorem continueWith_responses (es : List HostEvent) : (continueWith es s).responses = s.responses := rfl

/-! ### `takeEvent` -/
@[simp] theorem takeEvent_params (rest : List HostEvent) : (takeEvent rest s).params = s.params := rfl
@[simp] theorem takeEvent_status (rest : List HostEvent) : (takeEvent rest s).status = s.status := rfl
@[simp] theorem takeEvent_npix (rest : List HostEvent) : (takeEvent rest s).npix = s.npix := rfl
@[simp] theorem takeEvent_msglen (rest : List HostEvent) : (takeEvent rest s).msglen = s.msglen := rfl
@[simp] theorem takeEvent_reslen (rest : List HostEvent) : (takeEvent rest s).reslen = s.reslen := rfl
@[simp] theorem takeEvent_maxchars (rest : List HostEvent) : (takeEvent rest s).maxchars = s.maxchars := rfl
@[simp] theorem takeEvent_pending (rest : List HostEvent) : (takeEvent rest s).pending = s.pending := rfl
@[simp] theorem takeEvent_pix (rest : List HostEvent) : (takeEvent rest s).pix = s.pix := rfl
@[simp] theorem takeEvent_msg (rest : List HostEvent) : (takeEvent rest s).msg = s.msg := rfl
@[simp] theorem takeEvent_delay (rest : List HostEvent) : (takeEvent rest s).delay = s.delay - 1 := rfl
@[simp] theorem takeEvent_draws (rest : List HostEvent) : (takeEvent rest s).draws = s.draws := rfl
@[simp] theorem takeEvent_host (rest : List HostEvent) : (takeEvent rest s).host = rest := rfl
@[simp] theorem takeEvent_responses (rest : List HostEvent) : (takeEvent rest s).responses = s.responses := rfl

/-! ### `resetRegisters` -/
@[simp] theorem resetRegisters_params : (resetRegisters s).params = s.params := rfl
@[simp] theorem resetRegisters_status : (resetRegisters s).status = 0 := rfl
@[simp] theorem resetRegisters_npix : (resetRegisters s).npix = 0 := rfl
@[simp] theorem resetRegisters_msglen : (resetRegisters s).msglen = 0 := rfl
@[simp] theorem resetRegisters_reslen : (resetRegisters s).reslen = 0 := rfl
@[simp] theorem resetRegisters_maxchars : (resetRegisters s).maxchars = 0 := rfl
@[simp] theorem resetRegisters_pending : (resetRegisters s).pending = none := rfl
@[simp] theorem resetRegisters_pix : (resetRegisters s).pix = s.pix := rfl
@[simp] theorem resetRegisters_msg : (resetRegisters s).msg = s.msg := rfl
@[simp] theorem resetRegisters_delay : (resetRegisters s).delay = 0 := rfl
@[simp] theorem resetRegisters_draws : (resetRegisters s).draws = s.draws := rfl
@[simp] theorem resetRegisters_host : (resetRegisters s).host = s.host := rfl
@[simp] theorem resetRegisters_responses : (resetRegisters s).responses = s.responses := rfl

/-! ### `State.withMem` -/
@[simp] theorem withMem_params (sp : Space) (m : Memory) : (s.withMem sp m).params = s.params := by
  cases sp <;> rfl
@[simp] theorem withMem_status (sp : Space) (m : Memory) : (s.withMem sp m).status = s.status := by
  cases sp <;> rfl
@[simp] theorem withMem_npix (sp : Space) (m : Memory) : (s.withMem sp m).npix = s.npix := by
  cases sp <;> rfl
@[simp] theorem withMem_msglen (sp : Space) (m : Memory) : (s.withMem sp m).msglen = s.msglen := by
  cases sp <;> rfl
@[simp] theorem withMem_reslen (sp : Space) (m : Memory) : (s.withMem sp m).reslen = s.reslen := by
  cases sp <;> rfl
@[simp] theorem withMem_maxchars (sp : Space) (m : Memory) : (s.withMem sp m).maxchars = s.maxchars := by
  cases sp <;> rfl
@[simp] theorem withMem_pending (sp : Space) (m : Memory) : (s.withMem sp m).pending = s.pending := by
  cases sp <;> rfl
@[simp] theorem withMem_delay (sp : Space) (m : Memory) : (s.withMem sp m).delay = s.delay := by
  cases sp <;> rfl
@[simp] theorem withMem_draws (sp : Space) (m : Memory) : (s.withMem sp m).draws = s.draws := by
  cases sp <;> rfl
@[simp] theorem withMem_host (sp : Space) (m : Memory) : (s.withMem sp m).host = s.host := by
  cases sp <;> rfl
@[simp] theorem withMem_responses (sp : Space) (m : Memory) : (s.withMem sp m).responses = s.responses := by
  cases sp <;> rfl
@[simp] theorem withMem_pix_pix (m : Memory) : (s.withMem .pix m).pix = m := rfl
@[simp] theorem withMem_pix_msg (m : Memory) : (s.withMem .pix m).msg = s.msg := rfl
@[simp] theorem withMem_msg_msg (m : Memory) : (s.withMem .msg m).msg = m := rfl
@[simp] theorem withMem_msg_pix (m : Memory) : (s.withMem .msg m).pix = s.pix := rfl
@[simp] theorem mem_withMem (sp : Space) (m : Memory) : (s.withMem sp m).mem sp = m := by
  cases sp <;> rfl
@[simp] theorem extent_withMem (sp sq : Space) (m : Memory) :
    (s.withMem sp m).extent sq = s.extent sq := by cases sp <;> cases sq <;> rfl
@[simp] theorem withMem_withMem (sp : Space) (m m' : Memory) :
    (s.withMem sp m).withMem sp m' = s.withMem sp m' := by cases sp <;> rfl
@[simp] theorem withMem_self (sp : Space) : s.withMem sp (s.mem sp) = s := by cases sp <;> rfl

/-! ### The draw counter is no part of a memory -/
@[simp] theorem mem_draws (sp : Space) (n : Nat) :
    State.mem { s with draws := n } sp = s.mem sp := by cases sp <;> rfl
@[simp] theorem extent_draws (sp : Space) (n : Nat) :
    State.extent { s with draws := n } sp = s.extent sp := by cases sp <;> rfl

/-! ### `State.mem`, `State.extent`, `State.reset` -/
@[simp] theorem mem_pix : s.mem .pix = s.pix := rfl
@[simp] theorem mem_msg : s.mem .msg = s.msg := rfl
@[simp] theorem extent_pix : s.extent .pix = 3 * s.params.pixCap.toNat := rfl
@[simp] theorem extent_msg : s.extent .msg = s.params.msgCap.toNat := rfl
@[simp] theorem reset_params : State.reset.params = Config.params := rfl
@[simp] theorem reset_status : State.reset.status = 0 := rfl
@[simp] theorem reset_npix : State.reset.npix = 0 := rfl
@[simp] theorem reset_msglen : State.reset.msglen = 0 := rfl
@[simp] theorem reset_reslen : State.reset.reslen = 0 := rfl
@[simp] theorem reset_maxchars : State.reset.maxchars = 0 := rfl
@[simp] theorem reset_pending : State.reset.pending = none := rfl
@[simp] theorem reset_pix : State.reset.pix = Memory.blank := rfl
@[simp] theorem reset_msg : State.reset.msg = Memory.blank := rfl
@[simp] theorem reset_delay : State.reset.delay = 0 := rfl
@[simp] theorem reset_draws : State.reset.draws = 0 := rfl
@[simp] theorem reset_host : State.reset.host = [] := rfl
@[simp] theorem reset_responses : State.reset.responses = [] := rfl

end Sys2Proof.Machine
end

