-- ==== Sys2Proof/Laws/Memory.lean ====
section
/-! SUPPORT. The byte memory: a read after a write, and that every operation keeps the canonical
form, the bound on addresses and the unlisted bytes. -/

namespace Sys2Proof.Machine

/-! ### Lists of cells -/

theorem lookupCell_insertCell (a b : Nat) (v : Byte) (l : List Host.Cell) :
    lookupCell b (insertCell a v l) = if b = a then some v else lookupCell b l := by
  induction l with
  | nil => simp [insertCell, lookupCell]
  | cons c rest ih =>
    obtain ⟨d, w⟩ := c
    simp only [insertCell]
    split_ifs with h1 h2 <;> simp only [lookupCell, ih] <;> split_ifs <;> first | rfl | omega

theorem mem_insertCell {a : Nat} {v : Byte} {l : List Host.Cell} {c : Host.Cell}
    (h : c ∈ insertCell a v l) : c = (a, v) ∨ c ∈ l := by
  induction l with
  | nil => simpa [insertCell] using h
  | cons d rest ih =>
    obtain ⟨b, w⟩ := d
    simp only [insertCell] at h
    split_ifs at h <;> simp only [List.mem_cons] at h ⊢ <;> tauto

theorem lookupCell_eq_none {a : Nat} {l : List Host.Cell} :
    lookupCell a l = none ↔ ∀ c ∈ l, c.1 ≠ a := by
  induction l with
  | nil => simp [lookupCell]
  | cons c rest ih =>
    obtain ⟨b, w⟩ := c
    by_cases h : a = b <;> simp [lookupCell, h, ih] ; omega

theorem insertCell_lookupCell {a : Nat} {v : Byte} {l : List Host.Cell}
    (hl : l.Pairwise (fun x y => x.1 < y.1)) (h : lookupCell a l = some v) :
    insertCell a v l = l := by
  induction l with
  | nil => simp [lookupCell] at h
  | cons c rest ih =>
    obtain ⟨b, w⟩ := c
    rw [List.pairwise_cons] at hl
    by_cases hab : a = b
    · subst hab; simp_all [lookupCell, insertCell]
    · simp only [lookupCell, hab, if_false] at h
      have hlt : ¬ a < b := by
        intro hlt
        have : lookupCell a rest = none :=
          lookupCell_eq_none.2 fun c hc => by have := hl.1 c hc; simp at this; omega
        simp [this] at h
      simp [insertCell, hab, hlt, ih hl.2 h]

/-! ### One memory -/

@[simp] theorem Memory.set_fill (m : Memory) (a : Nat) (v : Byte) : (m.set a v).fill = m.fill := rfl

theorem Memory.get_set (m : Memory) (a b : Nat) (v : Byte) :
    (m.set a v).get b = if b = a then some v else m.get b := by
  simp only [Memory.get, Memory.set, lookupCell_insertCell]
  split_ifs <;> rfl

@[simp] theorem Memory.get_set_same (m : Memory) (a : Nat) (v : Byte) :
    (m.set a v).get a = some v := by simp [Memory.get_set]

theorem Memory.get_set_ne (m : Memory) {a b : Nat} (v : Byte) (h : b ≠ a) :
    (m.set a v).get b = m.get b := by simp [Memory.get_set, h]

theorem Memory.wf_set {m : Memory} (h : m.wf) (a : Nat) (v : Byte) : (m.set a v).wf := by
  obtain ⟨f, l⟩ := m
  simp only [Memory.wf, Memory.set] at h ⊢
  induction l with
  | nil => simp [insertCell]
  | cons c rest ih =>
    obtain ⟨b, w⟩ := c
    have hc := List.pairwise_cons.1 h
    simp only [insertCell]
    split_ifs with h1 h2
    · refine List.pairwise_cons.2 ⟨fun d hd => ?_, h⟩
      rcases List.mem_cons.1 hd with rfl | hd
      · exact h1
      · exact h1.trans (hc.1 d hd)
    · subst h2; exact List.pairwise_cons.2 hc
    · refine List.pairwise_cons.2 ⟨fun d hd => ?_, ih hc.2⟩
      rcases mem_insertCell hd with rfl | hd
      · simp only; omega
      · exact hc.1 d hd

theorem Memory.below_set {m : Memory} {n a : Nat} (h : m.below n) (ha : a < n) (v : Byte) :
    (m.set a v).below n := by
  intro c hc
  rcases mem_insertCell hc with rfl | hc
  · exact ha
  · exact h c hc

/-- Writing the byte a cell already lists changes nothing, as data. -/
theorem Memory.set_get {m : Memory} (hm : m.wf) (hf : m.fill = .uninit) {a : Nat} {v : Byte}
    (h : m.get a = some v) : m.set a v = m := by
  obtain ⟨f, l⟩ := m
  simp only at hf
  subst hf
  have hl : lookupCell a l = some v := by
    simp only [Memory.get, Fill.byteAt] at h
    split at h <;> simp_all
  simp [Memory.set, insertCell_lookupCell hm hl]

theorem Memory.wf_forgetBelow {m : Memory} (h : m.wf) (n : Nat) : (m.forgetBelow n).wf :=
  List.Pairwise.filter _ h

theorem Memory.below_forgetBelow {m : Memory} {k : Nat} (h : m.below k) (n : Nat) :
    (m.forgetBelow n).below k := fun c hc => h c (List.mem_filter.1 hc).1

@[simp] theorem Memory.forgetBelow_fill (m : Memory) (n : Nat) :
    (m.forgetBelow n).fill = m.fill := rfl

theorem lookupCell_filter (l : List Host.Cell) (n a : Nat) :
    lookupCell a (l.filter fun c => decide (n ≤ c.1)) =
      if n ≤ a then lookupCell a l else none := by
  induction l with
  | nil => simp [lookupCell]
  | cons c rest ih =>
    obtain ⟨b, w⟩ := c
    by_cases hb : n ≤ b <;> simp only [List.filter_cons, hb, decide_true, decide_false, if_true,
      Bool.false_eq_true, if_false, lookupCell, ih] <;> split_ifs <;> first | rfl | omega

theorem Memory.get_forgetBelow {m : Memory} (hf : m.fill = .uninit) (n a : Nat) :
    (m.forgetBelow n).get a = if n ≤ a then m.get a else none := by
  simp only [Memory.get, Memory.forgetBelow, lookupCell_filter, hf, Fill.byteAt]
  split_ifs <;> rfl

@[simp] theorem Memory.blank_get (a : Nat) : Memory.blank.get a = none := rfl
@[simp] theorem Memory.blank_fill : Memory.blank.fill = .uninit := rfl
theorem Memory.wf_blank : Memory.blank.wf := List.Pairwise.nil
theorem Memory.below_blank (n : Nat) : Memory.blank.below n := fun c hc => by cases hc
@[simp] theorem Memory.scratch_get (n a : Nat) :
    (Memory.scratch n).get a = some (Config.decodeScratch n a) := rfl
theorem Memory.wf_scratch (n : Nat) : (Memory.scratch n).wf := List.Pairwise.nil
theorem Memory.below_scratch (n k : Nat) : (Memory.scratch n).below k := fun c hc => by cases hc

/-! ### Equal contents are equal data -/

theorem rising_ext {l l' : List Host.Cell}
    (hl : l.Pairwise (fun x y => x.1 < y.1)) (hl' : l'.Pairwise (fun x y => x.1 < y.1))
    (h : ∀ a, lookupCell a l = lookupCell a l') : l = l' := by
  induction l generalizing l' with
  | nil =>
    cases l' with
    | nil => rfl
    | cons c r => obtain ⟨b, w⟩ := c; simpa [lookupCell] using h b
  | cons c r ih =>
    obtain ⟨b, w⟩ := c
    cases l' with
    | nil => simpa [lookupCell] using h b
    | cons c' r' =>
      obtain ⟨b', w'⟩ := c'
      have hc := List.pairwise_cons.1 hl
      have hc' := List.pairwise_cons.1 hl'
      have none_of {x : Nat} {q : List Host.Cell} (hq : ∀ e ∈ q, x < e.1) :
          lookupCell x q = none :=
        lookupCell_eq_none.2 fun e he => by have := hq e he; omega
      have none_lt {x y : Nat} {q : List Host.Cell} (hxy : x < y) (hq : ∀ e ∈ q, y < e.1) :
          lookupCell x q = none := none_of fun e he => hxy.trans (hq e he)
      have hbb : b = b' := by
        rcases Nat.lt_trichotomy b b' with hlt | heq | hgt
        · have := h b
          simp [lookupCell, hlt.ne, none_lt hlt hc'.1] at this
        · exact heq
        · have := h b'
          simp [lookupCell, hgt.ne, none_lt hgt hc.1] at this
      subst hbb
      have hww : w = w' := by simpa [lookupCell] using h b
      subst hww
      congr 1
      refine ih hc.2 hc'.2 fun a => ?_
      by_cases hab : a = b
      · subst hab; rw [none_of hc.1, none_of hc'.1]
      · simpa [lookupCell, hab] using h a

/-- Two canonical memories with the same unlisted bytes that list the same bytes are one and the same
datum. -/
theorem Memory.ext_of_lookup {m m' : Memory} (hm : m.wf) (hm' : m'.wf) (hf : m.fill = m'.fill)
    (h : ∀ a, lookupCell a m.cells = lookupCell a m'.cells) : m = m' := by
  obtain ⟨f, l⟩ := m
  obtain ⟨f', l'⟩ := m'
  simp only at hf
  subst hf
  simp only [Memory.mk.injEq, true_and]
  exact rising_ext hm hm' h

end Sys2Proof.Machine
end

