-- ==== Sys2Proof/Laws/Access.lean ====
section
/-! SUPPORT. Everything an access to a byte of state can do (R14, R55, R203), said once for one byte
and once for a run of bytes. -/

namespace Sys2Proof.Machine

/-! ### One byte -/

theorem memRead_of_get {sp : Space} {a : Nat} {s : State} {v : Byte}
    (ha : a < s.extent sp) (h : (s.mem sp).get a = some v) : memRead sp a s = .ok (v, s) := by
  simp [memRead, ha, h]

theorem memRead_anyValue {sp : Space} {a : Nat} {s : State} (hp : s.params.uninit = .anyValue)
    (ha : a < s.extent sp) (h : (s.mem sp).get a = none) :
    memRead sp a s = .ok (Config.uninitByte s.draws, { s with draws := s.draws + 1 }) := by
  simp [memRead, ha, h, hp]

theorem memRead_fault {sp : Space} {a : Nat} {s : State} (hp : s.params.uninit = .fault)
    (ha : a < s.extent sp) (h : (s.mem sp).get a = none) :
    memRead sp a s = .error (.uninitialisedRead sp a) := by
  simp [memRead, ha, h, hp]

/-- A read that succeeds gives the byte held there, if one is, and changes the draw counter only. -/
theorem memRead_ok {sp : Space} {a : Nat} {s t : State} {v : Byte}
    (h : memRead sp a s = .ok (v, t)) :
    a < s.extent sp ∧ t = { s with draws := t.draws } ∧
      (∀ w, (s.mem sp).get a = some w → v = w ∧ t = s) ∧
      ((s.mem sp).get a = none → s.params.uninit = .anyValue) := by
  unfold memRead at h
  split at h
  · rename_i ha
    split at h
    · rename_i w hw
      simp only [Except.ok.injEq, Prod.mk.injEq] at h
      obtain ⟨rfl, rfl⟩ := h
      simp_all
    · rename_i hn
      split at h
      · simp at h
      · rename_i hp
        simp only [Except.ok.injEq, Prod.mk.injEq] at h
        obtain ⟨rfl, rfl⟩ := h
        simp_all
  · simp at h

/-- A read that faults either names an uninitialised byte under UNINIT_POLICY = fault, or an address
outside the space. -/
theorem memRead_error {sp : Space} {a : Nat} {s : State} {f : Fault}
    (h : memRead sp a s = .error f) :
    (f = .uninitialisedRead sp a ∧ a < s.extent sp ∧ (s.mem sp).get a = none ∧
        s.params.uninit = .fault) ∨
      (f = .addressOutOfRange sp a ∧ s.extent sp ≤ a) := by
  unfold memRead at h
  split at h
  · rename_i ha
    split at h
    · simp at h
    · rename_i hn
      split at h
      · rename_i hp
        simp only [Except.error.injEq] at h
        exact .inl ⟨h.symm, ha, hn, hp⟩
      · simp at h
  · rename_i ha
    simp only [Except.error.injEq] at h
    exact .inr ⟨h.symm, by omega⟩

theorem memWrite_of_lt {sp : Space} {a : Nat} {v : Byte} {s : State} (ha : a < s.extent sp) :
    memWrite sp a v s = .ok (s.withMem sp ((s.mem sp).set a v)) := by simp [memWrite, ha]

theorem memWrite_ok {sp : Space} {a : Nat} {v : Byte} {s t : State}
    (h : memWrite sp a v s = .ok t) :
    a < s.extent sp ∧ t = s.withMem sp ((s.mem sp).set a v) := by
  unfold memWrite at h
  split at h
  · exact ⟨‹_›, by simpa using h.symm⟩
  · simp at h

theorem memWrite_error {sp : Space} {a : Nat} {v : Byte} {s : State} {f : Fault}
    (h : memWrite sp a v s = .error f) :
    f = .addressOutOfRange sp a ∧ s.extent sp ≤ a := by
  unfold memWrite at h
  split at h
  · simp at h
  · exact ⟨by simpa using h.symm, by omega⟩

/-! ### A run of bytes -/

theorem readBytes_of_get {sp : Space} {g : Nat → Byte} {s : State} (n : Nat) :
    ∀ a, a + n ≤ s.extent sp → (∀ i < n, (s.mem sp).get (a + i) = some (g i)) →
      readBytes sp n a s = .ok ((List.range n).map g, s) := by
  induction n generalizing g with
  | zero => intros; rfl
  | succ n ih =>
    intro a ha h
    have h0 := h 0 (by omega)
    rw [Nat.add_zero] at h0
    have ih' := ih (g := fun i => g (i + 1)) (a + 1) (by omega)
      (fun i hi => by rw [Nat.add_assoc, Nat.add_comm 1 i]; exact h (i + 1) (by omega))
    simp only [readBytes, memRead_of_get (by omega : a < s.extent sp) h0, ih',
      List.range_succ_eq_map, List.map_cons, List.map_map]
    rfl

/-- Reads that succeed give the bytes held there and change the draw counter only. -/
theorem readBytes_ok {sp : Space} {n a : Nat} {s t : State} {vs : List Byte}
    (h : readBytes sp n a s = .ok (vs, t)) :
    t = { s with draws := t.draws } ∧ vs.length = n ∧ (n = 0 ∨ a + n ≤ s.extent sp) := by
  induction n generalizing a s vs with
  | zero =>
    simp only [readBytes, Except.ok.injEq, Prod.mk.injEq] at h
    obtain ⟨rfl, rfl⟩ := h
    simp
  | succ n ih =>
    simp only [readBytes] at h
    split at h
    · simp at h
    · rename_i v s1 h1
      split at h
      · simp at h
      · rename_i ws s2 h2
        simp only [Except.ok.injEq, Prod.mk.injEq] at h
        obtain ⟨rfl, rfl⟩ := h
        obtain ⟨ha, hs1, -⟩ := memRead_ok h1
        obtain ⟨ht, hl, hb⟩ := ih h2
        have hx : s1.extent sp = s.extent sp := by rw [hs1]; simp
        refine ⟨by rw [ht, hs1], by simp [hl], .inr ?_⟩
        rcases hb with hb | hb <;> omega

/-- A byte that holds a value is read as that value, whatever the other bytes hold. -/
theorem readBytes_getElem? {sp : Space} {n a : Nat} {s t : State} {vs : List Byte}
    (h : readBytes sp n a s = .ok (vs, t)) {i : Nat} (hi : i < n) {v : Byte}
    (hv : (s.mem sp).get (a + i) = some v) : vs[i]? = some v := by
  induction n generalizing a s vs i with
  | zero => omega
  | succ n ih =>
    simp only [readBytes] at h
    split at h
    · simp at h
    · rename_i w s1 h1
      split at h
      · simp at h
      · rename_i ws s2 h2
        simp only [Except.ok.injEq, Prod.mk.injEq] at h
        obtain ⟨rfl, rfl⟩ := h
        cases i with
        | zero =>
          rw [memRead_of_get (memRead_ok h1).1 (by simpa using hv)] at h1
          simp_all
        | succ i =>
          rw [List.getElem?_cons_succ]
          refine ih h2 (by omega) ?_
          rw [(memRead_ok h1).2.1, mem_draws]
          rw [← hv]; congr 1; omega

/-- Under UNINIT_POLICY = any value reads within the space always succeed. -/
theorem readBytes_anyValue {sp : Space} {s : State} (hp : s.params.uninit = .anyValue) (n : Nat) :
    ∀ a, a + n ≤ s.extent sp → ∃ vs t, readBytes sp n a s = .ok (vs, t) := by
  induction n generalizing s with
  | zero => intros; exact ⟨_, _, rfl⟩
  | succ n ih =>
    intro a ha
    obtain ⟨v, s1, h1⟩ : ∃ v s1, memRead sp a s = .ok (v, s1) := by
      cases hg : (s.mem sp).get a with
      | some v => exact ⟨_, _, memRead_of_get (by omega) hg⟩
      | none => exact ⟨_, _, memRead_anyValue hp (by omega) hg⟩
    obtain ⟨-, hs1, -⟩ := memRead_ok h1
    have hx : s1.extent sp = s.extent sp := by rw [hs1]; simp
    obtain ⟨vs, t, h2⟩ := ih (s := s1) (by rw [hs1]; exact hp) (a + 1) (by omega)
    exact ⟨v :: vs, t, by simp [readBytes, h1, h2]⟩

theorem readBytes_error {sp : Space} {n a : Nat} {s : State} {f : Fault}
    (h : readBytes sp n a s = .error f) :
    ∃ b, a ≤ b ∧ b < a + n ∧
      ((f = .uninitialisedRead sp b ∧ (s.mem sp).get b = none ∧ s.params.uninit = .fault) ∨
        (f = .addressOutOfRange sp b ∧ s.extent sp ≤ b)) := by
  induction n generalizing a s with
  | zero => simp [readBytes] at h
  | succ n ih =>
    simp only [readBytes] at h
    split at h
    · rename_i f' h1
      simp only [Except.error.injEq] at h
      subst h
      refine ⟨a, le_rfl, by omega, ?_⟩
      rcases memRead_error h1 with ⟨h, -, hn, hp⟩ | h
      · exact .inl ⟨h, hn, hp⟩
      · exact .inr h
    · rename_i v s1 h1
      obtain ⟨-, hs1, -⟩ := memRead_ok h1
      split at h
      · rename_i f' h2
        simp only [Except.error.injEq] at h
        subst h
        obtain ⟨b, hb1, hb2, hb⟩ := ih h2
        refine ⟨b, by omega, by omega, ?_⟩
        rw [hs1] at hb
        simpa using hb
      · simp at h

/-- The memory after the bytes of a list were written from address `a` on. -/
def Memory.setMany (m : Memory) : Nat → List Byte → Memory
  | _, [] => m
  | a, v :: vs => (m.set a v).setMany (a + 1) vs

theorem writeBytes_of_le {sp : Space} (bs : List Byte) :
    ∀ (a : Nat) (s : State), a + bs.length ≤ s.extent sp →
      writeBytes sp bs a s = .ok (s.withMem sp ((s.mem sp).setMany a bs)) := by
  induction bs with
  | nil => intro a s _; simp [writeBytes, Memory.setMany]
  | cons v vs ih =>
    intro a s h
    simp only [List.length_cons] at h
    simp only [writeBytes, memWrite_of_lt (by omega : a < s.extent sp)]
    rw [ih (a + 1) _ (by simp; omega)]
    simp [Memory.setMany]

/-- Writes that fault name an address outside the space. -/
theorem writeBytes_error {sp : Space} {bs : List Byte} {a : Nat} {s : State} {f : Fault}
    (h : writeBytes sp bs a s = .error f) :
    ∃ b, a ≤ b ∧ b < a + bs.length ∧ f = .addressOutOfRange sp b ∧ s.extent sp ≤ b := by
  induction bs generalizing a s with
  | nil => simp [writeBytes] at h
  | cons v vs ih =>
    simp only [writeBytes] at h
    split at h
    · rename_i f' h1
      simp only [Except.error.injEq] at h
      subst h
      obtain ⟨rfl, hx⟩ := memWrite_error h1
      exact ⟨a, le_rfl, by simp, rfl, hx⟩
    · rename_i s1 h1
      obtain ⟨-, rfl⟩ := memWrite_ok h1
      obtain ⟨b, hb1, hb2, rfl, hx⟩ := ih h
      exact ⟨b, by omega, by simp; omega, rfl, by simpa using hx⟩

theorem Memory.setMany_fill (bs : List Byte) : ∀ (m : Memory) (a : Nat),
    (m.setMany a bs).fill = m.fill := by
  induction bs with
  | nil => intros; rfl
  | cons v vs ih => intro m a; simp [Memory.setMany, ih]

theorem Memory.get_setMany (bs : List Byte) : ∀ (m : Memory) (a b : Nat),
    (m.setMany a bs).get b =
      if a ≤ b ∧ b < a + bs.length then bs[b - a]? else m.get b := by
  induction bs with
  | nil =>
    intro m a b
    simp only [Memory.setMany, List.length_nil, Nat.add_zero]
    split_ifs
    · omega
    · rfl
  | cons v vs ih =>
    intro m a b
    simp only [Memory.setMany, ih, List.length_cons, Memory.get_set]
    rcases Nat.lt_trichotomy a b with h | rfl | h
    · have : b - a = b - (a + 1) + 1 := by omega
      simp only [this, List.getElem?_cons_succ, h.ne', if_false]
      split_ifs <;> first | rfl | omega
    · simp
    · rw [if_neg (by omega), if_neg (by omega), if_neg (by omega)]

theorem Memory.wf_setMany (bs : List Byte) : ∀ {m : Memory}, m.wf → ∀ a, (m.setMany a bs).wf := by
  induction bs with
  | nil => intro m h a; exact h
  | cons v vs ih => intro m h a; exact ih (Memory.wf_set h a v) (a + 1)

theorem Memory.below_setMany (bs : List Byte) : ∀ {m : Memory} {n : Nat}, m.below n → ∀ a,
    a + bs.length ≤ n → (m.setMany a bs).below n := by
  induction bs with
  | nil => intro m n h a _; exact h
  | cons v vs ih =>
    intro m n h a ha
    simp only [List.length_cons] at ha
    exact ih (Memory.below_set h (by omega) v) (a + 1) (by omega)

end Sys2Proof.Machine
end

