-- ==== Sys2Proof/Laws/Flags.lean ====
section
/-! SUPPORT. STATUS: each field reads back what was written to it, and a write of one field leaves the
others and the reserved bits alone (R24 to R27). -/

namespace Sys2Proof.Machine

theorem ResultCode.code_injective : Function.Injective ResultCode.code := by
  intro a b; cases a <;> cases b <;> decide

@[simp] theorem ResultCode.code_inj (a b : ResultCode) : a.code = b.code ↔ a = b :=
  ResultCode.code_injective.eq_iff

@[simp] theorem busyBit_withBusy (b : Bool) (st : Word) : busyBit (withBusy b st) = b := by
  cases b <;> simp [busyBit, withBusy]

@[simp] theorem busyBit_withResult (c : ResultCode) (st : Word) :
    busyBit (withResult c st) = busyBit st := by
  cases c <;> simp [busyBit, withResult, ResultCode.code]

/-- A bit of the field RESULT. -/
theorem getLsbD_resultField (st : Word) (i : Nat) (hi : i < 4) :
    (resultField st).getLsbD i = st.getLsbD (4 + i) := by
  simp [resultField, hi]

@[simp] theorem resultField_withResult (c : ResultCode) (st : Word) :
    resultField (withResult c st) = c.code := by
  apply BitVec.eq_of_getLsbD_eq
  intro i hi
  rw [getLsbD_resultField _ _ hi]
  have h : i = 0 ∨ i = 1 ∨ i = 2 ∨ i = 3 := by omega
  rcases h with rfl | rfl | rfl | rfl <;> cases c <;> simp [withResult, ResultCode.code]

@[simp] theorem resultField_withBusy (b : Bool) (st : Word) :
    resultField (withBusy b st) = resultField st := by
  apply BitVec.eq_of_getLsbD_eq
  intro i hi
  rw [getLsbD_resultField _ _ hi, getLsbD_resultField _ _ hi]
  have h : i = 0 ∨ i = 1 ∨ i = 2 ∨ i = 3 := by omega
  rcases h with rfl | rfl | rfl | rfl <;> cases b <;> simp [withBusy]

@[simp] theorem reservedBits_withBusy (b : Bool) (st : Word) :
    reservedBits (withBusy b st) = reservedBits st := by
  cases b <;>
    simp only [reservedBits, withBusy, BitVec.and_or_distrib_right, BitVec.and_assoc] <;> simp

@[simp] theorem reservedBits_withResult (c : ResultCode) (st : Word) :
    reservedBits (withResult c st) = reservedBits st := by
  cases c <;>
    simp only [reservedBits, withResult, ResultCode.code, BitVec.and_or_distrib_right,
      BitVec.and_assoc] <;> simp

/-! ### The fields of a state after each update of STATUS -/

@[simp] theorem busy_recordResult (c : ResultCode) (s : State) :
    (recordResult c s).busy = s.busy := by simp [State.busy]
@[simp] theorem result_recordResult (c : ResultCode) (s : State) :
    (recordResult c s).result = c.code := by simp [State.result]
@[simp] theorem busy_accept (c : Command) (s : State) : (accept c s).busy = true := by
  simp [State.busy]
@[simp] theorem result_accept (c : Command) (s : State) :
    (accept c s).result = ResultCode.none.code := by simp [State.result]
@[simp] theorem busy_complete (c : ResultCode) (s : State) : (complete c s).busy = false := by
  simp [State.busy]
@[simp] theorem result_complete (c : ResultCode) (s : State) :
    (complete c s).result = c.code := by simp [State.result]

/-- A STATUS word with no reserved bit set is its two fields (R24). -/
theorem status_eq_of_fields {st st' : Word} (hb : busyBit st = busyBit st')
    (hr : resultField st = resultField st') (hz : reservedBits st = reservedBits st') :
    st = st' := by
  apply BitVec.eq_of_getLsbD_eq
  intro i hi
  by_cases h0 : i = 0
  · subst h0; exact hb
  by_cases h4 : 4 ≤ i ∧ i < 8
  · have := congrArg (fun v => v.getLsbD (i - 4)) hr
    simp only [getLsbD_resultField _ (i - 4) (by omega)] at this
    rwa [show 4 + (i - 4) = i by omega] at this
  · have := congrArg (fun v => v.getLsbD i) hz
    simp only [reservedBits, BitVec.getLsbD_and] at this
    have hm : (0xFFFFFF0E#32).getLsbD i = true := by
      have : ∀ j : Fin 32, j.1 ≠ 0 → ¬ (4 ≤ j.1 ∧ j.1 < 8) → (0xFFFFFF0E#32).getLsbD j.1 = true := by
        decide
      exact this ⟨i, hi⟩ h0 h4
    simpa [hm] using this

end Sys2Proof.Machine
end

