-- ==== Sys2Proof/Laws/Decoder.lean ====
section
/-! SUPPORT. Everything the unit reader and the sentinel scan of DECODE can do (R130 to R136), said
once. -/

namespace Sys2Proof.Machine

/-! ### A unit (R132) -/

theorem Memory.get_eq_byte {m : Memory} {a : Nat} (h : m.get a ≠ none) :
    m.get a = some (m.byte a) := by
  cases hg : m.get a with
  | none => exact absurd hg h
  | some v => simp [Memory.byte, hg]

theorem and_one_eq (v : Byte) : v &&& 1#8 = if v.getLsbD 0 then 1#8 else 0#8 := by
  apply BitVec.eq_of_getLsbD_eq
  intro i hi
  rw [BitVec.getLsbD_and]
  by_cases h0 : i = 0
  · subst h0; cases v.getLsbD 0 <;> simp
  · have h1 : (1#8).getLsbD i = false := by
      have : ∀ j : Fin 8, j.1 ≠ 0 → (1#8).getLsbD j.1 = false := by decide
      exact this ⟨i, hi⟩ h0
    split <;> simp [h1]

/-- One bit shifted in from the right, as DECODE builds a unit. -/
def shiftIn (u : Byte) (b : Bool) : Byte := (u <<< 1) ||| (if b then 1#8 else 0#8)

theorem shiftInBits_of_get {n a : Nat} {u : Byte} {s : State} (hx : a + n ≤ s.extent .pix)
    (hr : ∀ i < n, s.pix.get (a + i) ≠ none) :
    shiftInBits n a u s =
      .ok (((List.range n).map fun i => s.pix.lsb (a + i)).foldl shiftIn u, s) := by
  induction n generalizing a u with
  | zero => rfl
  | succ n ih =>
    have h0 : s.pix.get a = some (s.pix.byte a) :=
      Memory.get_eq_byte (by simpa using hr 0 (by omega))
    rw [shiftInBits, memRead_of_get (sp := .pix) (s := s) (by omega) h0]
    simp only
    rw [ih (by omega) (fun i hi => by
      rw [Nat.add_assoc, Nat.add_comm 1 i]; exact hr (i + 1) (by omega))]
    simp only [List.range_succ_eq_map, List.map_cons, List.map_map, List.foldl_cons, shiftIn,
      Memory.lsb, Nat.add_zero, and_one_eq]
    congr 3
    refine List.map_congr_left fun i _ => ?_
    simp only [Function.comp_apply]
    congr 2
    omega

theorem foldl_shiftIn_eq (b : Fin 8 → Bool) :
    [b 0, b 1, b 2, b 3, b 4, b 5, b 6, b 7].foldl shiftIn 0 =
      BitVec.ofNat 8 (([b 0, b 1, b 2, b 3, b 4, b 5, b 6, b 7].zipIdx.map
        fun p => p.1.toNat <<< (7 - p.2)).sum) := by
  generalize b 0 = b0, b 1 = b1, b 2 = b2, b 3 = b3
  generalize b 4 = b4, b 5 = b5, b 6 = b6, b 7 = b7
  revert b0 b1 b2 b3 b4 b5 b6 b7
  decide

/-- A unit whose eight channels hold a value is the sum of R132. -/
theorem readUnit_of_get {k : Nat} {s : State} (hx : 8 * k + 8 ≤ s.extent .pix)
    (hr : ∀ i < 8, s.pix.get (8 * k + i) ≠ none) : readUnit k s = .ok (s.pix.unit k, s) := by
  rw [readUnit, shiftInBits_of_get hx hr]
  have := foldl_shiftIn_eq (fun i => s.pix.lsb (8 * k + i.1))
  exact congrArg (fun u => Except.ok (u, s)) this

theorem shiftInBits_ok {n a : Nat} {u v : Byte} {s t : State}
    (h : shiftInBits n a u s = .ok (v, t)) : t = { s with draws := t.draws } := by
  induction n generalizing a u s with
  | zero =>
    simp only [shiftInBits, Except.ok.injEq, Prod.mk.injEq] at h
    rw [← h.2]
  | succ n ih =>
    simp only [shiftInBits] at h
    split at h
    · simp at h
    · rename_i ch s1 h1
      rw [ih h, (memRead_ok h1).2.1]

theorem shiftInBits_anyValue {n a : Nat} {u : Byte} {s : State}
    (hp : s.params.uninit = .anyValue) (hx : a + n ≤ s.extent .pix) :
    ∃ v t, shiftInBits n a u s = .ok (v, t) := by
  induction n generalizing a u s with
  | zero => exact ⟨_, _, rfl⟩
  | succ n ih =>
    obtain ⟨ch, s1, h1⟩ : ∃ ch s1, memRead .pix a s = .ok (ch, s1) := by
      cases hg : s.pix.get a with
      | some v => exact ⟨_, _, memRead_of_get (by omega) hg⟩
      | none => exact ⟨_, _, memRead_anyValue hp (by omega) hg⟩
    obtain ⟨-, hs1, -⟩ := memRead_ok h1
    have hx1 : s1.extent .pix = s.extent .pix := by rw [hs1]; simp
    obtain ⟨v, t, ht⟩ := ih (a := a + 1) (u := (u <<< 1) ||| (ch &&& 1#8)) (s := s1)
      (by rw [hs1]; exact hp) (by omega)
    exact ⟨v, t, by simp [shiftInBits, h1, ht]⟩

theorem shiftInBits_error {n a : Nat} {u : Byte} {s : State} {e : Fault}
    (h : shiftInBits n a u s = .error e) :
    ∃ b, a ≤ b ∧ b < a + n ∧
      ((e = .uninitialisedRead .pix b ∧ s.pix.get b = none ∧ s.params.uninit = .fault) ∨
        (e = .addressOutOfRange .pix b ∧ s.extent .pix ≤ b)) := by
  induction n generalizing a u s with
  | zero => simp [shiftInBits] at h
  | succ n ih =>
    simp only [shiftInBits] at h
    split at h
    · rename_i e' h1
      simp only [Except.error.injEq] at h
      subst h
      refine ⟨a, le_rfl, by omega, ?_⟩
      rcases memRead_error h1 with ⟨h, -, hn, hp⟩ | h
      · exact .inl ⟨h, hn, hp⟩
      · exact .inr h
    · rename_i ch s1 h1
      obtain ⟨-, hs1, -⟩ := memRead_ok h1
      obtain ⟨b, hb1, hb2, hb⟩ := ih h
      rw [hs1] at hb
      exact ⟨b, by omega, by omega, hb⟩

/-! ### The scan (R134) -/

/-- A scan that ends without a fault: it changed the draw counter only, and a string it returns has 9
bytes fewer than the units it saw. -/
theorem scanUnits_ok {n k : Nat} {str : List Byte} {s t : State} {r : Option (List Byte)}
    (h : scanUnits n k str s = .ok (r, t)) :
    t = { s with draws := t.draws } ∧ ∀ m, r = some m → m.length ≤ str.length + n - 9 := by
  induction n generalizing k str s with
  | zero =>
    simp only [scanUnits, Except.ok.injEq, Prod.mk.injEq] at h
    obtain ⟨rfl, rfl⟩ := h
    simp
  | succ n ih =>
    simp only [scanUnits] at h
    split at h
    · simp at h
    · rename_i u s1 h1
      have hs1 := shiftInBits_ok h1
      split at h
      · simp only [Except.ok.injEq, Prod.mk.injEq] at h
        obtain ⟨rfl, rfl⟩ := h
        refine ⟨hs1, fun m hm => ?_⟩
        simp only [Option.some.injEq] at hm
        subst hm
        simp only [List.length_take, List.length_append, List.length_cons, List.length_nil]
        omega
      · obtain ⟨ht, hm⟩ := ih h
        refine ⟨by rw [ht, hs1], fun m hr => ?_⟩
        have := hm m hr
        simp only [List.length_append, List.length_cons, List.length_nil] at this
        omega

theorem scanUnits_anyValue {n k : Nat} {str : List Byte} {s : State}
    (hp : s.params.uninit = .anyValue) (hx : 8 * (k + n) ≤ s.extent .pix) :
    ∃ r t, scanUnits n k str s = .ok (r, t) := by
  induction n generalizing k str s with
  | zero => exact ⟨_, _, rfl⟩
  | succ n ih =>
    obtain ⟨u, s1, h1⟩ := shiftInBits_anyValue (n := 8) (a := 8 * k) (u := 0) hp (by omega)
    have hs1 := shiftInBits_ok h1
    have hx1 : s1.extent .pix = s.extent .pix := by rw [hs1]; simp
    have h1' : readUnit k s = .ok (u, s1) := h1
    simp only [scanUnits, h1']
    split
    · exact ⟨_, _, rfl⟩
    · exact ih (by rw [hs1]; exact hp) (by omega)

theorem scanUnits_error {n k : Nat} {str : List Byte} {s : State} {e : Fault}
    (h : scanUnits n k str s = .error e) :
    ∃ b, 8 * k ≤ b ∧ b < 8 * (k + n) ∧
      ((e = .uninitialisedRead .pix b ∧ s.pix.get b = none ∧ s.params.uninit = .fault) ∨
        (e = .addressOutOfRange .pix b ∧ s.extent .pix ≤ b)) := by
  induction n generalizing k str s with
  | zero => simp [scanUnits] at h
  | succ n ih =>
    simp only [scanUnits] at h
    split at h
    · rename_i e' h1
      simp only [Except.error.injEq] at h
      subst h
      obtain ⟨b, hb1, hb2, hb⟩ := shiftInBits_error h1
      exact ⟨b, hb1, by omega, hb⟩
    · rename_i u s1 h1
      have hs1 := shiftInBits_ok h1
      split at h
      · simp at h
      · obtain ⟨b, hb1, hb2, hb⟩ := ih h
        rw [hs1] at hb
        exact ⟨b, by omega, by omega, hb⟩

/-- The running string after `k` units, extended by unit `k`. -/
theorem unitString_succ (m : Memory) (k : Nat) :
    m.unitString (k + 1) = m.unitString k ++ [m.unit k] := by
  simp [Memory.unitString, List.range_succ]

/-- Over channels that hold a value, a scan with a first match at unit `k` returns the units before
the delimiter. -/
theorem scanUnits_found {s : State} {k : Nat} (d : Nat) :
    ∀ n j, j + d = k → d < n → 8 * (k + 1) ≤ s.extent .pix → s.pix.initialised (8 * (k + 1)) →
      endsWith (s.pix.unitString (k + 1)) delim = true →
      (∀ i < k, endsWith (s.pix.unitString (i + 1)) delim = false) →
      scanUnits n j (s.pix.unitString j) s = .ok (some (s.pix.unitString (k - 8)), s) := by
  induction d with
  | zero =>
    intro n j hj hn hx hi hm _
    obtain ⟨n, rfl⟩ : ∃ n', n = n' + 1 := ⟨n - 1, by omega⟩
    obtain rfl : j = k := by omega
    have hu := readUnit_of_get (k := j) (s := s) (by omega) (fun i h => hi _ (by omega))
    simp only [scanUnits, hu, ← unitString_succ, hm, if_true]
    congr 3
    simp only [Memory.unitString, List.length_map, List.length_range, ← List.map_take,
      List.take_range]
    congr 2
    omega
  | succ d ih =>
    intro n j hj hn hx hi hm hf
    obtain ⟨n, rfl⟩ : ∃ n', n = n' + 1 := ⟨n - 1, by omega⟩
    have hu := readUnit_of_get (k := j) (s := s) (by omega) (fun i h => hi _ (by omega))
    simp only [scanUnits, hu, ← unitString_succ, hf j (by omega)]
    exact ih n (j + 1) (by omega) (by omega) hx hi hm hf

/-- Over channels that hold a value, a scan without a match returns nothing. -/
theorem scanUnits_none {s : State} (n : Nat) :
    ∀ j, 8 * (j + n) ≤ s.extent .pix → s.pix.initialised (8 * (j + n)) →
      (∀ i < j + n, endsWith (s.pix.unitString (i + 1)) delim = false) →
      scanUnits n j (s.pix.unitString j) s = .ok (none, s) := by
  induction n with
  | zero => intros; rfl
  | succ n ih =>
    intro j hx hi hf
    have hu := readUnit_of_get (k := j) (s := s) (by omega) (fun i h => hi _ (by omega))
    simp only [scanUnits, hu, ← unitString_succ, hf j (by omega)]
    exact ih (j + 1) (by omega) (fun a ha => hi a (by omega)) (fun i h => hf i (by omega))

/-- The test of R134 on the first `k + 1` units: the delimiter ends at unit `k`. -/
theorem endsWith_unitString (m : Memory) (k : Nat) :
    endsWith (m.unitString (k + 1)) delim = true ↔ m.delimEndsAt k := by
  have hlen : (m.unitString (k + 1)).length = k + 1 := by simp [Memory.unitString]
  have hd : delim.length = 9 := rfl
  rw [endsWith, List.isSuffixOf_iff_suffix, List.suffix_iff_eq_drop, Memory.delimEndsAt, hlen, hd]
  constructor
  · intro h
    have h8 : 8 ≤ k := by
      have := congrArg List.length h
      simp only [List.length_drop, hlen, hd] at this
      omega
    refine ⟨h8, fun j hj => ?_⟩
    have h1 : delim[j]? = some (m.unit (k - 8 + j)) := by
      rw [h, List.getElem?_drop, Memory.unitString, List.getElem?_map,
        List.getElem?_range (by omega)]
      simp only [Option.map_some]
      congr 2
    rw [List.getD_eq_getElem?_getD, h1]
    rfl
  · rintro ⟨h8, h⟩
    apply List.ext_getElem?
    intro j
    rw [List.getElem?_drop]
    by_cases hj : j < 9
    · have h1 := h j hj
      rw [Memory.unitString, List.getElem?_map, List.getElem?_range (by omega)]
      simp only [Option.map_some]
      rw [show k + 1 - 9 + j = k - 8 + j by omega, h1, List.getD_eq_getElem?_getD,
        List.getElem?_eq_getElem (by rw [hd]; exact hj)]
      rfl
    · rw [List.getElem?_eq_none (by rw [hd]; omega),
        List.getElem?_eq_none (by rw [hlen]; omega)]

end Sys2Proof.Machine
end

