-- ==== Sys2Proof/Laws/Encoder.lean ====
section
/-! SUPPORT. Everything the bit cursor of ENCODE can do (R104 to R107), said once. -/

namespace Sys2Proof.Machine

/-! ### LSB replacement (R105) -/

theorem replaceLsb_lsb (ch : Byte) (b : Bool) : (replaceLsb ch b).getLsbD 0 = b := by
  cases b <;> simp [replaceLsb]

theorem replaceLsb_high (ch : Byte) (b : Bool) : replaceLsb ch b &&& 0xFE#8 = ch &&& 0xFE#8 := by
  cases b <;> simp only [replaceLsb, BitVec.and_or_distrib_right, BitVec.and_assoc] <;> simp

/-- Replacing a channel's LSB by itself leaves the channel (R117). -/
theorem replaceLsb_self (ch : Byte) : replaceLsb ch (ch.getLsbD 0) = ch := by
  apply BitVec.eq_of_getLsbD_eq
  intro i hi
  by_cases h0 : i = 0
  · subst h0; exact replaceLsb_lsb ch _
  · have hm : (0xFE#8).getLsbD i = true := by
      have : ∀ j : Fin 8, j.1 ≠ 0 → (0xFE#8).getLsbD j.1 = true := by decide
      exact this ⟨i, hi⟩ h0
    have h1 : (1#8).getLsbD i = false := by
      have : ∀ j : Fin 8, j.1 ≠ 0 → (1#8).getLsbD j.1 = false := by decide
      exact this ⟨i, hi⟩ h0
    simp only [replaceLsb, BitVec.getLsbD_or, BitVec.getLsbD_and, hm, Bool.and_true]
    split <;> simp [h1]

/-! ### The bit cursor -/

/-- A cursor that ends in a next state: what it wrote, and that it changed nothing else. -/
theorem packBits_ok {f : List Byte} {n i : Nat} {s t : State} (h : packBits f n i s = .ok t) :
    t = { s with pix := t.pix, draws := t.draws } ∧ t.pix.fill = s.pix.fill ∧
      (s.pix.wf → t.pix.wf) ∧ (s.pix.below (s.extent .pix) → t.pix.below (s.extent .pix)) ∧
      (n = 0 ∨ i + n ≤ s.extent .pix) ∧
      (∀ a, (a < i ∨ i + n ≤ a) → t.pix.get a = s.pix.get a) ∧
      (∀ a, i ≤ a → a < i + n → ∃ ch, t.pix.get a = some (replaceLsb ch (streamBit f a)) ∧
        ∀ w, s.pix.get a = some w → ch = w) ∧
      ((∀ a, i ≤ a → a < i + n → s.pix.get a ≠ none) → t.draws = s.draws) := by
  induction n generalizing i s with
  | zero =>
    simp only [packBits, Except.ok.injEq] at h
    subst h
    refine ⟨rfl, rfl, id, id, .inl rfl, fun _ _ => rfl, fun a h1 h2 => by omega, fun _ => rfl⟩
  | succ n ih =>
    simp only [packBits] at h
    split at h
    · simp at h
    · rename_i ch s1 h1
      split at h
      · simp at h
      · rename_i s2 h2
        obtain ⟨hi, hs1, hv, hnone⟩ := memRead_ok h1
        obtain ⟨-, hs2⟩ := memWrite_ok h2
        obtain ⟨ht, hfill, hwf, hbelow, hext, hout, hin, hdraws⟩ := ih h
        have hp1 : s1.pix = s.pix := by rw [hs1]
        have hp2 : s2.pix = s.pix.set i (replaceLsb ch (streamBit f i)) := by
          rw [hs2, ← hp1]; rfl
        have hx2 : s2.extent .pix = s.extent .pix := by rw [hs2, hs1]; simp
        rw [hx2] at hbelow hext
        refine ⟨?_, by rw [hfill, hp2]; rfl, fun hw => hwf (hp2 ▸ Memory.wf_set hw _ _),
          fun hb => hbelow (hp2 ▸ Memory.below_set hb hi _), .inr ?_, ?_, ?_, ?_⟩
        · rw [ht, hs2, hs1]; rfl
        · rcases hext with hext | hext <;> omega
        · intro a ha
          rw [hout a (by omega), hp2, Memory.get_set_ne _ _ (by omega)]
        · intro a ha1 ha2
          by_cases hai : a = i
          · subst hai
            refine ⟨ch, by rw [hout a (by omega), hp2, Memory.get_set_same], fun w hw => ?_⟩
            exact (hv w hw).1
          · obtain ⟨c, hc1, hc2⟩ := hin a (by omega) (by omega)
            refine ⟨c, hc1, fun w hw => hc2 w ?_⟩
            rw [hp2, Memory.get_set_ne _ _ hai]; exact hw
        · intro hinit
          rw [hdraws, hs2]
          · simp only [withMem_draws]
            cases hg : s.pix.get i with
            | none => exact absurd hg (hinit i le_rfl (by omega))
            | some w => rw [(hv w hg).2]
          · intro a ha1 ha2
            rw [hp2, Memory.get_set]
            split_ifs
            · simp
            · exact hinit a (by omega) (by omega)

/-- The cursor ends in a next state if every byte it rewrites exists, and holds a value or may be
drawn. -/
theorem packBits_exists {f : List Byte} {n i : Nat} {s : State}
    (hx : i + n ≤ s.extent .pix)
    (hr : s.params.uninit = .anyValue ∨ ∀ a, i ≤ a → a < i + n → s.pix.get a ≠ none) :
    ∃ t, packBits f n i s = .ok t := by
  induction n generalizing i s with
  | zero => exact ⟨s, rfl⟩
  | succ n ih =>
    obtain ⟨ch, s1, h1⟩ : ∃ ch s1, memRead .pix i s = .ok (ch, s1) := by
      cases hg : s.pix.get i with
      | some v => exact ⟨_, _, memRead_of_get (by omega) hg⟩
      | none =>
        rcases hr with hr | hr
        · exact ⟨_, _, memRead_anyValue hr (by omega) hg⟩
        · exact absurd hg (hr i le_rfl (by omega))
    obtain ⟨-, hs1, -⟩ := memRead_ok h1
    have hx1 : s1.extent .pix = s.extent .pix := by rw [hs1]; simp
    have h2 := memWrite_of_lt (v := replaceLsb ch (streamBit f i)) (by omega : i < s1.extent .pix)
    obtain ⟨t, ht⟩ := ih (i := i + 1) (s := s1.withMem .pix ((s1.mem .pix).set i
        (replaceLsb ch (streamBit f i)))) (by simp only [extent_withMem]; omega) (by
      rcases hr with hr | hr
      · left; simp only [withMem_params]; rw [hs1]; exact hr
      · right
        intro a ha1 ha2
        simp only [withMem_pix_pix, mem_pix, Memory.get_set]
        split_ifs
        · simp
        · rw [hs1]; exact hr a (by omega) (by omega))
    exact ⟨t, by simp only [packBits, h1, h2]; exact ht⟩

/-- A cursor that faults names a byte of its own range: uninitialised under UNINIT_POLICY = fault, or
outside PIX. -/
theorem packBits_error {f : List Byte} {n i : Nat} {s : State} {e : Fault}
    (h : packBits f n i s = .error e) :
    ∃ a, i ≤ a ∧ a < i + n ∧
      ((e = .uninitialisedRead .pix a ∧ s.pix.get a = none ∧ s.params.uninit = .fault) ∨
        (e = .addressOutOfRange .pix a ∧ s.extent .pix ≤ a)) := by
  induction n generalizing i s with
  | zero => simp [packBits] at h
  | succ n ih =>
    simp only [packBits] at h
    split at h
    · rename_i e' h1
      simp only [Except.error.injEq] at h
      subst h
      refine ⟨i, le_rfl, by omega, ?_⟩
      rcases memRead_error h1 with ⟨h, -, hn, hp⟩ | h
      · exact .inl ⟨h, hn, hp⟩
      · exact .inr h
    · rename_i ch s1 h1
      obtain ⟨hi, hs1, -⟩ := memRead_ok h1
      have hx1 : s1.extent .pix = s.extent .pix := by rw [hs1]; simp
      split at h
      · rename_i e' h2
        have := (memWrite_error h2).2
        omega
      · rename_i s2 h2
        obtain ⟨-, hs2⟩ := memWrite_ok h2
        obtain ⟨a, ha1, ha2, ha⟩ := ih h
        have hx2 : s2.extent .pix = s.extent .pix := by rw [hs2, hs1]; simp
        refine ⟨a, by omega, by omega, ?_⟩
        rcases ha with ⟨h, hn, hp⟩ | ⟨h, hx⟩
        · refine .inl ⟨h, ?_, by rw [hs2, hs1] at hp; exact hp⟩
          rw [hs2] at hn
          simp only [withMem_pix_pix, mem_pix, Memory.get_set] at hn
          rw [if_neg (by omega), hs1] at hn
          exact hn
        · exact .inr ⟨h, by omega⟩

end Sys2Proof.Machine
end

