-- ==== Sys2Proof/Laws/Commands.lean ====
section
/-! SUPPORT. What each command can do to the state, said once: inversion of issue and of the two
completion steps. -/

namespace Sys2Proof.Machine

/-- Issue either accepts the command or records BAD_CONFIG (R160, R163). -/
theorem issue_cases (c : Command) (s : State) :
    (configOk c s = true ∧ issue c s = accept c s) ∨
      (configOk c s = false ∧ issue c s = recordResult .badConfig s) := by
  cases h : configOk c s <;> simp [issue, h]

theorem exec_encode_idle {s : State} (h : s.pending = none) :
    exec .encode s = .next (issue .encode s) := by simp [exec, execEncode, h]
theorem exec_encode_inFlight {s : State} (h : s.pending = some .encode) :
    exec .encode s = encodeCompletion s := by simp [exec, execEncode, h]
theorem exec_decode_idle {s : State} (h : s.pending = none) :
    exec .decode s = .next (issue .decode s) := by simp [exec, execDecode, h]
theorem exec_decode_inFlight {s : State} (h : s.pending = some .decode) :
    exec .decode s = decodeCompletion s := by simp [exec, execDecode, h]

/-- A completion step of ENCODE that ends in a next state: it read the payload, and then either found
the carrier too small or ran the bit cursor (R104). -/
theorem encodeCompletion_next {s t : State} (h : encodeCompletion s = .next t) :
    ∃ m s1, readBytes .msg s.payloadLen 0 s = .ok (m, s1) ∧
      s1 = { s with draws := s1.draws } ∧
      ((s.streamLen > s.capacity ∧ t = complete .capacityExceeded (recordMaxchars s1)) ∨
        (s.streamLen ≤ s.capacity ∧
          ∃ s2, packBits (framed m) s.streamLen 0 (recordMaxchars s1) = .ok s2 ∧
            t = complete .ok s2)) := by
  unfold encodeCompletion readPayload at h
  split at h
  · simp at h
  · rename_i m s1 h1
    refine ⟨m, s1, h1, (readBytes_ok h1).1, ?_⟩
    split at h
    · rename_i hc
      simp only [Host.Outcome.next.injEq] at h
      exact .inl ⟨hc, h.symm⟩
    · rename_i hc
      split at h
      · simp at h
      · rename_i s2 h2
        simp only [Host.Outcome.next.injEq] at h
        exact .inr ⟨by omega, s2, h2, h.symm⟩

/-- A completion step of DECODE that ends in a next state: the scan found nothing, or its message was
written to MSGBUF (R130). -/
theorem decodeCompletion_next {s t : State} (h : decodeCompletion s = .next t) :
    ∃ r s1, scanUnits s.units 0 [] s = .ok (r, s1) ∧ s1 = { s with draws := s1.draws } ∧
      ((r = none ∧ t = complete .notFound (recordReslen 0 (scratchMessage s1))) ∨
        ∃ m s2, r = some m ∧ m.length ≤ s.units - 9 ∧
          writeBytes .msg m 0 (scratchMessage s1) = .ok s2 ∧
          t = complete .ok (recordReslen m.length s2)) := by
  unfold decodeCompletion at h
  split at h
  · simp at h
  · rename_i s1 h1
    simp only [Host.Outcome.next.injEq] at h
    exact ⟨none, s1, h1, (scanUnits_ok h1).1, .inl ⟨rfl, h.symm⟩⟩
  · rename_i m s1 h1
    obtain ⟨hs1, hm⟩ := scanUnits_ok h1
    have hm := hm m rfl
    split at h
    · simp at h
    · rename_i s2 h2
      simp only [Host.Outcome.next.injEq] at h
      exact ⟨some m, s1, h1, hs1, .inr ⟨m, s2, rfl, by simpa using hm, h2, h.symm⟩⟩

end Sys2Proof.Machine
end

