-- ==== Sys2Proof/Laws/Decode.lean ====
section
/-! SUPPORT. The decoder by cases (R82), that its rows do not overlap, and that the block's parameters
meet R10. -/

namespace Sys2Proof

/-- No two legal rows of the table share a word (R82). -/
theorem opRows_disjoint :
    opRows.Pairwise (fun r q => (r.mask &&& q.mask &&& (r.pattern ^^^ q.pattern)) ≠ 0) := by decide

/-- The decoder, case by case (R82). -/
theorem decodeWord_eq (w : Word) :
    decodeWord w =
      if w = 0#32 then .nop else if w = 1#32 then .encode else if w = 2#32 then .decode
      else .illegal (opcField w) (mbzField w) := by
  have hm : w &&& 0xFFFFFFFF#32 = w := by
    rw [show (0xFFFFFFFF#32) = BitVec.allOnes 32 from rfl, BitVec.and_allOnes]
  simp only [decodeWord, opRows, List.find?_cons, List.find?_nil, OpRow.fits, hm]
  by_cases h0 : w = 0#32
  · simp [h0]
  by_cases h1 : w = 1#32
  · simp [h1]
  by_cases h2 : w = 2#32
  · simp [h2]
  have e0 : (w == 0#32) = false := by simpa using h0
  have e1 : (w == 1#32) = false := by simpa using h1
  have e2 : (w == 2#32) = false := by simpa using h2
  rw [e0, e1, e2, if_neg h0, if_neg h1, if_neg h2]

/-- The two fields of a word give it back (R80). -/
theorem mbzField_append_opcField (w : Word) : mbzField w ++ opcField w = w := by
  apply BitVec.eq_of_getLsbD_eq
  intro i hi
  simp only [BitVec.getLsbD_append, mbzField, opcField, BitVec.getLsbD_extractLsb']
  by_cases h : i < 8
  · simp [h]
  · simp [h, show i - 8 < 24 by omega, show 8 + (i - 8) = i by omega]

@[simp] theorem opcField_append (opc : BitVec 8) (mbz : BitVec 24) :
    opcField (mbz ++ opc) = opc := by
  apply BitVec.eq_of_getLsbD_eq
  intro i hi
  rw [opcField, BitVec.getLsbD_extractLsb', BitVec.getLsbD_append]
  simp [hi]

@[simp] theorem mbzField_append (opc : BitVec 8) (mbz : BitVec 24) :
    mbzField (mbz ++ opc) = mbz := by
  apply BitVec.eq_of_getLsbD_eq
  intro i hi
  rw [mbzField, BitVec.getLsbD_extractLsb', BitVec.getLsbD_append]
  simp [hi]

/-- The parameters of the block that `State.reset` describes meet R10, whatever was chosen. -/
theorem Config.params_ok : Config.params.ok = true := by
  have hp : 1 ≤ Config.pixCap.toNat := by
    unfold Config.pixCap
    split
    · decide
    · rename_i h
      have : Config.pixCapChoice.toNat ≠ 0 := fun h0 => h (BitVec.eq_of_toNat_eq h0)
      omega
  have hm : 3 * Config.pixCap.toNat / 8 ≤ Config.msgCap.toNat := by
    unfold Config.msgCap
    split
    · rw [BitVec.toNat_ofNat]
      have := Config.pixCap.isLt
      rw [Nat.mod_eq_of_lt (by omega)]
    · omega
  simp [Params.ok, Config.params, hp, hm]

end Sys2Proof
end

