-- ==== Sys2Proof/Laws/HostProgram.lean ====
section
/-! SUPPORT. Characters and bytes at the host, both ways (R19, R182), and what a byte's response gives
back. -/

namespace Sys2Proof.Machine

@[simp] theorem byteOfChar_charOfByte (b : Byte) : byteOfChar (charOfByte b) = .ok b := by
  have hb : b.toNat ≤ 255 := by omega
  simp [byteOfChar, charOfByte, hb]

/-- Everything the mapping of a character can do: its byte has it as its character, or the code point is
above 255 and is rejected. -/
theorem byteOfChar_cases (c : Nat) :
    (∃ b, byteOfChar c = .ok b ∧ charOfByte b = c) ∨
      (255 < c ∧ byteOfChar c = .error (.invalidCharacter c)) := by
  by_cases h : c ≤ 255
  · exact .inl ⟨BitVec.ofNat 8 c, by simp [byteOfChar, h],
      by rw [charOfByte, BitVec.toNat_ofNat, Nat.mod_eq_of_lt (by omega)]⟩
  · exact .inr ⟨by omega, by simp [byteOfChar, h]⟩

@[simp] theorem stringOfBytes_nil : stringOfBytes [] = [] := rfl
@[simp] theorem stringOfBytes_cons (b : Byte) (bs : List Byte) :
    stringOfBytes (b :: bs) = charOfByte b :: stringOfBytes bs := rfl
@[simp] theorem length_stringOfBytes (bs : List Byte) : (stringOfBytes bs).length = bs.length := by
  simp [stringOfBytes]

/-- The responses to accepted MsgReads give the bytes back (R53). -/
@[simp] theorem bytesOfResponses_ok (bs : List Byte) :
    bytesOfResponses (bs.map fun b => .ok (b.setWidth 32)) = some bs := by
  induction bs with
  | nil => rfl
  | cons b bs ih =>
    have hb : (b.setWidth 32).setWidth 8 = b := by
      apply BitVec.eq_of_toNat_eq
      simp only [BitVec.toNat_setWidth]
      omega
    simp [bytesOfResponses, ih, hb]

end Sys2Proof.Machine
end

