-- ==== Sys2Proof/Laws/PerInstr.lean ====
section
/-! SUPPORT. A family of statements about each command word as syntax: a well-formed term's word falls
under its own legal row of the opcode table, and an illegal term's word under none (R81, R82, R89). -/

namespace Sys2Proof.Laws.OwnRow

/-- The word of a well-formed `i` selects the row of `i`. -/
def Statement (i : Instr) : Prop :=
  i.wf = true →
    (opRows.filter fun r => r.fits (encodeInstr i)).map OpRow.instr =
      match i with
      | .illegal _ _ => []
      | _ => [i]

theorem nop : Statement .nop := fun _ => by decide
theorem encode : Statement .encode := fun _ => by decide
theorem decode : Statement .decode := fun _ => by decide
theorem illegal (opc : BitVec 8) (mbz : BitVec 24) : Statement (.illegal opc mbz) := by
  intro h
  have ne (o : BitVec 8) (ho : o = 0 ∨ o = 1 ∨ o = 2) (w : Word) (hw : w = 0#24 ++ o) :
      mbz ++ opc ≠ w := by
    rintro rfl
    have h1 := congrArg mbzField hw
    have h2 := congrArg opcField hw
    simp only [mbzField_append, opcField_append] at h1 h2
    subst h1 h2
    rcases ho with rfl | rfl | rfl <;> simp [Instr.wf] at h
  have hm : (mbz ++ opc : Word) &&& 0xFFFFFFFF#32 = mbz ++ opc := by
    rw [show (0xFFFFFFFF#32) = BitVec.allOnes 32 from rfl, BitVec.and_allOnes]
  have h0 := ne 0 (by simp) 0x00000000#32 (by decide)
  have h1 := ne 1 (by simp) 0x00000001#32 (by decide)
  have h2 := ne 2 (by simp) 0x00000002#32 (by decide)
  simp [opRows, OpRow.fits, encodeInstr, hm, h0, h1, h2]

end Sys2Proof.Laws.OwnRow
end

