-- ==== Sys2Proof/Laws/Step.lean ====
section
/-! SUPPORT. One step, said once: whose turn it is, and what the host port does with a
transaction. -/

namespace Sys2Proof.Machine

theorem engineTurn_eq_some {s : State} {c : Command} :
    engineTurn s = some c ↔ s.pending = some c ∧ (s.delay = 0 ∨ s.host = []) := by
  unfold engineTurn
  cases h : s.pending with
  | none => simp
  | some d => simp only [Option.some.injEq]; split <;> simp_all

theorem engineTurn_eq_none {s : State} :
    engineTurn s = none ↔ s.pending = none ∨ (s.delay ≠ 0 ∧ s.host ≠ []) := by
  unfold engineTurn
  cases h : s.pending with
  | none => simp
  | some d => simp

theorem step_engine {s : State} {c : Command} (h : engineTurn s = some c) :
    step s = exec c.instr s := by simp [step, h]

theorem step_host {s : State} {e : HostEvent} {rest : List HostEvent}
    (h : engineTurn s = none) (hh : s.host = e :: rest) :
    step s = hostEvent e (takeEvent rest s) := by simp [step, h, hostTurn, hh]

theorem step_over {s : State} (h : s.over) : step s = .next s := by
  obtain ⟨h1, h2⟩ := h
  simp [step, engineTurn, h2, hostTurn, h1]

/-- Everything a step that ends in a next state can be: the engine's completion step, the host's next
event, or nothing at all. -/
theorem step_cases {s t : State} (h : step s = .next t) :
    (∃ c, engineTurn s = some c ∧ exec c.instr s = .next t) ∨
      (∃ e rest, engineTurn s = none ∧ s.host = e :: rest ∧
        hostEvent e (takeEvent rest s) = .next t) ∨
      (s.over ∧ t = s) := by
  unfold step at h
  split at h
  · exact .inl ⟨_, ‹_›, h⟩
  · rename_i hn
    unfold hostTurn at h
    split at h
    · rename_i hh
      simp only [Host.Outcome.next.injEq] at h
      refine .inr (.inr ⟨⟨hh, ?_⟩, h.symm⟩)
      rcases engineTurn_eq_none.1 hn with hp | ⟨-, hp⟩
      · exact hp
      · exact absurd hh hp
    · exact .inr (.inl ⟨_, _, hn, ‹_›, h⟩)

/-! ### The host port -/

theorem portCheck_range {s : State} {t : Transaction} (h : inRange s t = false) :
    portCheck s t = some .range := by simp [portCheck, h]

/-- A transaction passes the three checks exactly when its address exists, the block is idle or it is
RegRead(STATUS), and it writes no read-only register (R59). -/
theorem portCheck_none {s : State} {t : Transaction} :
    portCheck s t = none ↔ inRange s t = true ∧
      (s.busy = false ∨ t = .regRead Reg.status.index) ∧ writesReadOnly t = false := by
  unfold portCheck
  cases inRange s t <;> cases s.busy <;> by_cases ht : t = .regRead Reg.status.index <;>
    cases writesReadOnly t <;> simp [ht]

theorem hostTransaction_error {s : State} {t : Transaction} {k : ErrKind}
    (h : portCheck s t = some k) : hostTransaction t s = .next (respond (.err k) s) := by
  simp [hostTransaction, h]

theorem hostTransaction_performed {s : State} {t : Transaction} (h : portCheck s t = none) :
    hostTransaction t s = performTransaction t s := by simp [hostTransaction, h]

theorem regOfIndex_index (x : Reg) : regOfIndex x.index = some x := by cases x <;> decide

theorem index_of_regOfIndex {r : Word} {x : Reg} (h : regOfIndex r = some x) : r = x.index := by
  apply BitVec.eq_of_toNat_eq
  unfold regOfIndex at h
  split at h <;> simp only [Option.some.injEq, reduceCtorEq] at h <;> subst h <;>
    simp_all [Reg.index]

theorem regOfIndex_eq_none {r : Word} : regOfIndex r = none ↔ 8 ≤ r.toNat := by
  unfold regOfIndex
  generalize r.toNat = n
  constructor
  · intro h
    by_contra hn
    have : ∀ m : Fin 8, (match m.1 with
        | 0 => some Reg.cmd | 1 => some .status | 2 => some .npix | 3 => some .msglen
        | 4 => some .reslen | 5 => some .maxchars | 6 => some .pixcap | 7 => some .msgcap
        | _ => none) ≠ none := by decide
    exact this ⟨n, by omega⟩ h
  · intro h
    obtain ⟨m, rfl⟩ : ∃ m, n = m + 8 := ⟨n - 8, by omega⟩
    rfl

theorem hostReadByte_next {sp : Space} {a : Nat} {s t : State}
    (h : hostReadByte sp a s = .next t) :
    ∃ v n, t = respond (.ok v) { s with draws := n } := by
  unfold hostReadByte at h
  split at h
  · simp at h
  · rename_i v s1 h1
    simp only [Host.Outcome.next.injEq] at h
    exact ⟨_, s1.draws, by rw [← h, ← (memRead_ok h1).2.1]⟩

theorem hostWriteByte_next {sp : Space} {a : Nat} {v : Byte} {s t : State}
    (h : hostWriteByte sp a v s = .next t) :
    a < s.extent sp ∧ t = respond (.ok 0) (s.withMem sp ((s.mem sp).set a v)) := by
  unfold hostWriteByte at h
  split at h
  · simp at h
  · rename_i s1 h1
    simp only [Host.Outcome.next.injEq] at h
    obtain ⟨ha, rfl⟩ := memWrite_ok h1
    exact ⟨ha, h.symm⟩

/-- Everything a performed transaction that ends in a next state can be. -/
theorem performTransaction_next {tx : Transaction} {s t : State}
    (h : performTransaction tx s = .next t) :
    (∃ k n, t = respond k { s with draws := n }) ∨
      (∃ w t1, tx = .regWrite Reg.cmd.index w ∧ exec (decodeWord w) s = .next t1 ∧
        t = respond (.ok 0) t1) ∨
      (∃ v, tx = .regWrite Reg.npix.index v ∧ t = respond (.ok 0) { s with npix := v }) ∨
      (∃ v, tx = .regWrite Reg.msglen.index v ∧ t = respond (.ok 0) { s with msglen := v }) ∨
      (∃ a v, tx = .pixWrite a v ∧ a.toNat < s.extent .pix ∧
        t = respond (.ok 0) { s with pix := s.pix.set a.toNat v }) ∨
      (∃ a v, tx = .msgWrite a v ∧ a.toNat < s.extent .msg ∧
        t = respond (.ok 0) { s with msg := s.msg.set a.toNat v }) := by
  have same (k : Response) : ∃ k' n, respond k s = respond k' { s with draws := n } :=
    ⟨k, s.draws, rfl⟩
  cases tx with
  | regRead r =>
    simp only [performTransaction] at h
    split at h <;> simp only [Host.Outcome.next.injEq] at h <;> subst h <;> exact .inl (same _)
  | regWrite r v =>
    simp only [performTransaction] at h
    split at h
    · rename_i x hx
      obtain rfl := index_of_regOfIndex hx
      cases x with
      | cmd =>
        simp only [writeReg] at h
        cases he : exec (decodeWord v) s with
        | next t1 =>
          simp only [he, thenRespond, Host.Outcome.next.injEq] at h
          exact .inr (.inl ⟨v, t1, rfl, he, h.symm⟩)
        | fault f => simp [he, thenRespond] at h
        | refused q => simp [he, thenRespond] at h
      | npix =>
        simp only [writeReg, Host.Outcome.next.injEq] at h
        exact .inr (.inr (.inl ⟨v, rfl, h.symm⟩))
      | msglen =>
        simp only [writeReg, Host.Outcome.next.injEq] at h
        exact .inr (.inr (.inr (.inl ⟨v, rfl, h.symm⟩)))
      | _ =>
        simp only [writeReg, Host.Outcome.next.injEq] at h
        subst h
        exact .inl (same _)
    · simp only [Host.Outcome.next.injEq] at h
      subst h
      exact .inl (same _)
  | pixRead a =>
    obtain ⟨v, n, rfl⟩ := hostReadByte_next h
    exact .inl ⟨_, n, rfl⟩
  | msgRead a =>
    obtain ⟨v, n, rfl⟩ := hostReadByte_next h
    exact .inl ⟨_, n, rfl⟩
  | pixWrite a v =>
    obtain ⟨ha, rfl⟩ := hostWriteByte_next h
    exact .inr (.inr (.inr (.inr (.inl ⟨a, v, rfl, ha, rfl⟩))))
  | msgWrite a v =>
    obtain ⟨ha, rfl⟩ := hostWriteByte_next h
    exact .inr (.inr (.inr (.inr (.inr ⟨a, v, rfl, ha, rfl⟩))))

end Sys2Proof.Machine
end

