-- ==== Sys2Proof/Tests/Slice0.lean ====
section
/-! SUPPORT. The model's own tests, with expected results from the spec's tables and vectors, and for
every statement with hypotheses a concrete state that meets them. -/

namespace Sys2Proof.Tests
open Sys2Proof.Machine
set_option Elab.async false

/-! ### Small states -/

/-- `n` bytes written as one hexadecimal number, address 0 first, as 95_test_vectors.md writes them. -/
def bytes (n hex : Nat) : List Byte :=
  (List.range n).map fun i => BitVec.ofNat 8 (hex >>> (8 * (n - 1 - i)))

/-- A memory that holds a byte list from address 0 on, the rest uninitialised. -/
def held (bs : List Byte) : Memory := ⟨.uninit, bs.zipIdx.map fun p => (p.2, p.1)⟩

/-- An idle block with PIX_CAP 64, MSG_CAP 24 and UNINIT_POLICY = fault, whose carrier and payload are
exactly these bytes. -/
def block (pix msg : List Byte) : State :=
  { State.reset with
    params := ⟨64, 24, .fault⟩
    npix := BitVec.ofNat 32 (pix.length / 3)
    msglen := BitVec.ofNat 32 msg.length
    pix := held pix
    msg := held msg }

/-- A carrier of `n` black pixels. -/
def black (n : Nat) : List Byte := List.replicate (3 * n) 0

/-- The same block with a command in flight and one more turn for the host. -/
def inFlight (c : Command) (s : State) : State :=
  { s with pending := some c, status := 1, delay := 1 }

/-- The same block with the other UNINIT_POLICY. -/
def anyValue (s : State) : State := { s with params := ⟨64, 24, .anyValue⟩ }

/-- The host's only remaining event. -/
def asks (e : HostEvent) (s : State) : State := { s with host := [e] }

/-- The host's only remaining event, a transaction. -/
def does (t : Transaction) (s : State) : State := asks (.transaction t) s

/-- "HI". -/
def hi : List Byte := bytes 2 0x4849
/-- "x|||END|||y", the payload of V25. -/
def tricky : List Byte := bytes 11 0x787C7C7C454E447C7C7C79
/-- V3's end state: the delimiter in 24 black pixels. -/
def carrierV3 : List Byte :=
  bytes 72 0x000101010101000000010101010100000001010101010000000100000001000100010000010101000001000000010000000101010101000000010101010100000001010101010000
/-- V1's end state: "HI" and the delimiter in 30 black pixels. -/
def carrierV1 : List Byte :=
  bytes 90 0x000100000100000000010000010000010001010101010000000101010101000000010101010100000001000000010001000100000101010000010000000100000001010101010000000101010101000000010101010100000000

/-- Whether an outcome is a next state with property `p`. -/
def nextSat (p : State → Bool) : Host.Outcome State Fault Refusal → Bool
  | .next t => p t
  | .fault _ => false
  | .refused _ => false

/-- The fault an outcome is. -/
def faultOf : Host.Outcome State Fault Refusal → Option Fault
  | .next _ => none
  | .fault f => some f
  | .refused _ => none

theorem exists_of_nextSat {p : State → Bool} {o : Host.Outcome State Fault Refusal}
    (h : nextSat p o = true) : ∃ t, o = .next t ∧ p t = true := by
  cases o with
  | next t => exact ⟨t, rfl, h⟩
  | fault f => simp [nextSat] at h
  | refused r => simp [nextSat] at h

/-- The invariant from a check that evaluates. -/
theorem inv_of_check {s : State}
    (h : s.params.ok = true ∧ s.pix.wf ∧ s.pix.below (s.extent .pix) ∧ s.pix.fill = .uninit ∧
      s.msg.wf ∧ s.msg.below (s.extent .msg) ∧ reservedBits s.status = 0 ∧
      (s.result = 0 ∨ s.result = 5) ∧ (s.busy = true ↔ s.pending ≠ none) ∧
      (s.busy = true → s.result = 0) ∧ (∀ c ∈ s.pending.toList, configOk c s = true) ∧
      s.reslen.toNat ≤ 3 * s.params.pixCap.toNat / 8 - 9 ∧
      s.maxchars.toNat ≤ 3 * s.params.pixCap.toNat / 8) : s.Inv := by
  obtain ⟨h1, h2, h3, h4, h5, h6, h7, h8, h9, h10, h11, h12, h13⟩ := h
  refine ⟨h1, h2, h3, h4, h5, h6, h7, ?_, h9, h10, ?_, h12, h13⟩
  · rcases h8 with h | h
    · exact ⟨.none, h⟩
    · exact ⟨.badConfig, h⟩
  · intro c hc
    exact h11 c (by simp [hc])

/-! ### Well-formedness (R81, R89) -/

theorem test_wellFormed_refuses_legal_words : Instr.wf (.illegal 0 0) = false ∧
    Instr.wf (.illegal 1 0) = false ∧ Instr.wf (.illegal 2 0) = false := by decide
theorem test_wellFormed_admits_illegal_words : Instr.wf (.illegal 3 0) = true ∧
    Instr.wf (.illegal 0 1) = true ∧ Instr.wf (.illegal 1 1) = true := by decide

/-! ### Decoding (R81, R82; words from the opcode table and V40 to V43) -/

theorem test_decode_nop : decodeWord 0b00000000000000000000000000000000#32 = .nop := by decide
theorem test_decode_encode : decodeWord 0b00000000000000000000000000000001#32 = .encode := by decide
theorem test_decode_decode : decodeWord 0b00000000000000000000000000000010#32 = .decode := by decide
theorem test_decode_illegal :
    decodeWord 0b00000000000000000000000000000011#32 = .illegal 0x03#8 0x000000#24 := by decide
theorem test_decode_illegal_mbz :
    decodeWord 0b00000000000000000000000100000001#32 = .illegal 0x01#8 0x000001#24 := by decide
theorem test_decode_illegal_topBit :
    decodeWord 0b10000000000000000000000000000010#32 = .illegal 0x02#8 0x800000#24 := by decide
theorem test_encode_words : encode .nop = [0x00000000#32] ∧ encode .encode = [0x00000001#32] ∧
    encode .decode = [0x00000002#32] ∧
    encode (.illegal 0x01#8 0x000001#24) = [0x00000101#32] := by decide
theorem test_decodeTableWord : decodeTableWord 32 0 = some .nop ∧ decodeTableWord 32 1 = some .encode ∧
    decodeTableWord 32 2 = some .decode ∧ decodeTableWord 32 3 = some (.illegal 3 0) := by decide
theorem test_decodeBits_widths : decodeBits 40 1 = .error .longerThanOneWord ∧
    decodeBits 8 0x101 = .error .bitsAboveWidth ∧ decodeBits 8 1 = .ok .encode := by decide +kernel
theorem test_opRows_disjoint :
    opRows.Pairwise (fun a b => a.pattern &&& b.mask ≠ b.pattern &&& a.mask) := by decide

/-! ### A step from reset runs the word placed (R160, R161, R163, R165, R166) -/

theorem test_withFetchWord_nop :
    step (State.reset.withFetchWord 32 0) = .next { State.reset with responses := [⟨.ok 0, false⟩] } := rfl
theorem test_withFetchWord_encode :
    nextSat (fun t => t.pending == some .encode && t.status == 0x00000001#32)
      (step (State.reset.withFetchWord 32 1)) = true := by decide +kernel
theorem test_withFetchWord_decode :
    nextSat (fun t => t.pending == some .decode && t.status == 0x00000001#32)
      (step (State.reset.withFetchWord 32 2)) = true := by decide +kernel
theorem test_withFetchWord_illegal : step (State.reset.withFetchWord 32 3) =
    .next { State.reset with status := 0x00000040#32, responses := [⟨.ok 0, false⟩] } := rfl

/-! ### The commands -/

/-- V40: NOP leaves STATUS = 0x00000020. -/
theorem test_nop_keeps_status :
    step (does (.regWrite 0 0) { block [] [] with status := 0x20 }) =
      .next { block [] [] with status := 0x20, responses := [⟨.ok 0, false⟩] } := rfl

/-- V42: 0x00000101 runs no ENCODE. -/
theorem test_illegal_runs_nothing :
    step (does (.regWrite 0 0x101) (block [] hi)) =
      .next { block [] hi with status := 0x40, responses := [⟨.ok 0, false⟩] } := rfl

/-- V13. -/
theorem test_encode_changes_only_lsbs :
    nextSat (fun t => t.status == 0x10#32 && t.maxchars == 11#32 && t.pix == held (bytes 90
        0x0a31547a9fc4e80e32597ca2c7ec10375a81a5cbef15385e82a9cdf3173d6086aad1f51b3f6588aed2f91c42668db0d7fa21446a8fb5d9fe22496c92b6dd00264a7195bbdf05284e7299bde3072d50769ac1e50b2f55789ec3e8))
      (exec .encode (inFlight .encode
        (block ((List.range 90).map fun a => BitVec.ofNat 8 (37 * a + 11)) hi))) = true := by
  decide +kernel

/-- V7: one bit over. -/
theorem test_encode_one_bit_over :
    nextSat (fun t => t.status == 0x30#32 && t.maxchars == 10#32 && t.pix == held (black 29))
      (exec .encode (inFlight .encode (block (black 29) (bytes 2 0x6162)))) = true := by
  decide +kernel

/-- V20. -/
theorem test_decode_hi :
    nextSat (fun t => t.status == 0x10#32 && t.reslen == 2#32 &&
        t.msg.cells == [(0, 0x48#8), (1, 0x49#8)])
      (exec .decode (inFlight .decode (block carrierV1 []))) = true := by
  decide +kernel

/-- The first delimiter wins: the first 27 pixels of the V25 carrier as P4 prints it, where a match ends at
unit 9. -/
theorem test_decode_first_match :
    nextSat (fun t => t.status == 0x10#32 && t.reslen == 1#32 && t.msg.cells == [(0, 0x78#8)])
      (exec .decode (inFlight .decode (block (bytes 81
        0x000101010100000000010101010100000001010101010000000101010101000000010000000100010001000001010100000100000001000000010101010100000001010101010000000101010101000000) []))) = true := by
  decide +kernel

/-- V11. -/
theorem test_replaceLsb : replaceLsb 0x01 false = 0x00 ∧ replaceLsb 0x01 true = 0x01 ∧
    replaceLsb 0xFE true = 0xFF ∧ replaceLsb 0xFF false = 0xFE ∧ replaceLsb 0x80 true = 0x81 ∧
    replaceLsb 0x7F false = 0x7E := by decide

/-! ### The host port (V50 to V59, V61) and reset (V60) -/

/-- V57, V58, V59: the order of the three checks. -/
theorem test_portCheck_order :
    portCheck (inFlight .encode (block [] [])) (.regWrite 9 0) = some .range ∧
      portCheck (inFlight .encode (block [] [])) (.regWrite 1 0) = some .busy ∧
      portCheck (inFlight .encode (block [] [])) (.regWrite 0 2) = some .busy ∧
      portCheck (inFlight .encode (block [] [])) (.regRead 1) = none ∧
      portCheck (block [] []) (.regWrite 4 5) = some .readOnly := by decide

/-- V61: NPIX stores 0xFFFFFFFF. -/
theorem test_npix_stores_any_value :
    step (does (.regWrite 2 0xFFFFFFFF) (block [] [])) =
      .next { block [] [] with npix := 0xFFFFFFFF, responses := [⟨.ok 0, false⟩] } := rfl

/-- V60: a read of a byte never written. -/
theorem test_read_of_uninitialised_byte :
    faultOf (step (does (.pixRead 0) (block [] []))) = some (.uninitialisedRead .pix 0) := by decide

/-- A warm reset with ENCODE in flight loses the carrier and nothing above it (R202). -/
theorem test_warmReset_loses_the_carrier :
    warmReset { inFlight .encode (block (bytes 6 0x010203040506) hi) with npix := 1 } =
      { State.reset with
        params := ⟨64, 24, .fault⟩, msg := held hi
        pix := ⟨.uninit, [(3, 4#8), (4, 5#8), (5, 6#8)]⟩ } := by rfl

/-- R168: a poll that `wait` repeats is received and not observed. -/
theorem test_wait_repeats_unobserved :
    nextSat (fun t => t.host == [.wait] && t.responses == [⟨.ok 1, true⟩] &&
        t.observedResponses == []) (step (asks .wait (inFlight .encode (block [] [])))) = true := by
  decide +kernel

/-- R168 on V20's end state: the message is observed, the DECODE_SCRATCH bytes after it are not. -/
theorem test_scratch_unobserved :
    nextSat (fun t => t.msg.content 1 == .value 0x49 && t.msg.content 2 == .unspecified &&
        t.pix.content 90 == .uninitialised)
      (exec .decode (inFlight .decode (block carrierV1 hi))) = true := by
  decide +kernel

/-- R168: the bytes beyond MSG_CAP do not exist, so what an unlisted byte holds does not show once every
byte of MSGBUF is written. -/
theorem test_observation_ends_at_msgCap :
    State.sameObservation
      { State.reset with params := ⟨1, 1, .fault⟩, msg := ⟨.scratch 0, [(0, 5#8)]⟩ }
      { State.reset with params := ⟨1, 1, .fault⟩, msg := ⟨.uninit, [(0, 5#8)]⟩ } := by
  refine ⟨fun r => by cases r <;> rfl, fun _ _ => rfl, fun a ha => ?_, rfl⟩
  obtain rfl : a = 0 := Nat.lt_one_iff.1 ha
  rfl

/-- R19 on P1's `getmsg` responses, and on the two ends of the range. -/
theorem test_messageOfGetmsg : messageOfGetmsg [.ok 2, .ok 0x48, .ok 0x49] = some [0x48, 0x49] ∧
    messageOfGetmsg [.ok 2, .ok 0x00, .ok 0xFF] = some [0, 255] ∧
    messageOfGetmsg [.err .busy] = none := by decide

/-- R182 and R94. -/
theorem test_setmsg : setmsg [0x48, 255] = .ok [wmsg 0 0x48, wmsg 1 0xFF, wreg .msglen 2] ∧
    setmsg [0x48, 256] = .error (.invalidCharacter 256) := by decide

/-! ### Witnesses: commands and their life -/

theorem witness_DecodingIsAnExactMatch :
    (3#32 ≠ 0x00000000#32 ∧ 3#32 ≠ 0x00000001#32 ∧ 3#32 ≠ 0x00000002#32) ∧
      (⟨0xFFFFFFFF#32, 0x00000002#32, .decode⟩ : OpRow) ∈ opRows := by decide
theorem witness_DecodeOfEncode : Instr.wf .decode = true ∧ Instr.wf (.illegal 0xFF 0xFFFFFF) = true ∧
    Instr.wf (.illegal 3 0) = true := by decide
theorem witness_NopChangesNothing :
    ((does (.regWrite 0 0) (block [] [])).hostNext (.transaction (.regWrite 0 0)) [] ∧
      (does (.regWrite 0 0) (block [] [])).busy = false) ∧
    (does (.regWrite 0 0) (inFlight .decode (block [] []))).hostNext
        (.transaction (.regWrite 0 0)) [] ∧
      (does (.regWrite 0 0) (inFlight .decode (block [] []))).busy = true :=
  ⟨⟨⟨rfl, rfl⟩, rfl⟩, ⟨rfl, rfl⟩, rfl⟩
theorem witness_IllegalWordRecordsIllegalCommand :
    (3#32 ≠ 0x00000000#32 ∧ 3#32 ≠ 0x00000001#32 ∧ 3#32 ≠ 0x00000002#32) ∧
      (does (.regWrite 0 3) (block [] [])).hostNext (.transaction (.regWrite 0 3)) [] ∧
      (does (.regWrite 0 3) (block [] [])).busy = false ∧
      (does (.regWrite 0 3) (block [] [])).pending = none :=
  ⟨by decide, ⟨rfl, rfl⟩, rfl, rfl⟩
theorem witness_AcceptanceSetsBusy (c : Command) : (block (black 1) hi).pending = none ∧
    configOk c (block (black 1) hi) = true := by cases c <;> decide
theorem witness_ConfigurationIsCheckedAtIssue :
    (block [] []).pending = none ∧
    (∀ s ∈ [{ block [] [] with npix := 64, msglen := 24 }],
      s.npix.toNat ≤ s.params.pixCap.toNat ∧ s.msglen.toNat ≤ s.params.msgCap.toNat) ∧
    (∀ s ∈ [{ block [] [] with npix := 65 }, { block [] [] with npix := 64, msglen := 25 }],
      ¬ (s.npix.toNat ≤ s.params.pixCap.toNat ∧ s.msglen.toNat ≤ s.params.msgCap.toNat)) := by
  decide +kernel
theorem witness_OtherCommandInFlightHasNoEffect :
    (inFlight .encode (block [] [])).pending = some .encode ∧
      Instr.decode ≠ Command.instr .encode := by decide
theorem witness_EngineStepEndsTheCommand :
    (({ inFlight .decode (block [] []) with delay := 0 } : State).pending = some .decode ∧
      (inFlight .decode (block [] [])).host = [] ∧ (block [] []).pending = none ∧
      (block [] []).host = []) ∧
    ∃ t, exec (Command.instr .decode) (inFlight .decode (block [] [])) = .next t ∧ true = true :=
  ⟨⟨rfl, rfl, rfl, rfl⟩, exists_of_nextSat (p := fun _ => true) (by decide +kernel)⟩
theorem witness_StepRunsTheDecodedCommand :
    (does (.regWrite 0 1) (block (black 24) [])).hostNext (.transaction (.regWrite 0 1)) [] ∧
      (does (.regWrite 0 1) (block (black 24) [])).busy = false := ⟨⟨rfl, rfl⟩, rfl⟩

theorem inv_inFlight_encode : (inFlight .encode (block (black 24) [])).Inv :=
  inv_of_check (by decide +kernel)
theorem inv_inFlight_decode : (inFlight .decode (block carrierV1 [])).Inv :=
  inv_of_check (by decide +kernel)
theorem inv_idle : (block (black 3) hi).Inv := inv_of_check (by decide +kernel)

theorem witness_CompletionIsReached : (anyValue (inFlight .encode (block (black 24) []))).Inv ∧
    (anyValue (inFlight .encode (block (black 24) []))).params.uninit = .anyValue ∧
    (anyValue (inFlight .encode (block (black 24) []))).pending = some .encode :=
  ⟨inv_of_check (by decide +kernel), rfl, rfl⟩
theorem witness_CommandsAreStateless :
    ((inFlight .encode (block (black 24) [])).pending = some .encode ∧
      ∃ t, exec (Command.instr .encode) (inFlight .encode (block (black 24) [])) = .next t ∧
        true = true) ∧
    exec (Command.instr .decode) { inFlight .decode (block [] []) with npix := 3 } =
      .fault (.uninitialisedRead .pix 0) :=
  ⟨⟨rfl, exists_of_nextSat (p := fun _ => true) (by decide +kernel)⟩, rfl⟩

/-! ### Witnesses: ENCODE -/

/-- V1 and, at the boundary 8 × (L + 9) = 3 × N, V3. -/
theorem witness_EncodeWritesTheBitstream :
    ∀ s ∈ [inFlight .encode (block (black 30) hi), inFlight .encode (block (black 24) [])],
      s.pending = some .encode ∧ s.npix.toNat ≤ s.params.pixCap.toNat ∧
      s.msglen.toNat ≤ s.params.msgCap.toNat ∧ 8 * (s.msglen.toNat + 9) ≤ 3 * s.npix.toNat ∧
      s.msg.initialised s.msglen.toNat ∧ s.pix.initialised (8 * (s.msglen.toNat + 9)) := by
  unfold Memory.initialised; decide +kernel
/-- V7, one bit over; for the second clause also a payload that was never written. -/
theorem witness_EncodeTooLongLeavesPixmem :
    (∀ s ∈ [inFlight .encode (block (black 29) hi)],
      s.pending = some .encode ∧ s.msglen.toNat ≤ s.params.msgCap.toNat ∧
      s.msg.initialised s.msglen.toNat ∧ 8 * (s.msglen.toNat + 9) > 3 * s.npix.toNat) ∧
    ∃ t, exec .encode { anyValue (inFlight .encode (block (black 1) [])) with msglen := 2 } = .next t ∧
      (t.result == 3) = true :=
  ⟨by unfold Memory.initialised; decide +kernel,
    exists_of_nextSat (p := fun t => t.result == 3) (by decide +kernel)⟩
theorem witness_EncodeSucceedsExactlyWhenItFits :
    (inFlight .encode (block (black 24) [])).pending = some .encode ∧
    (∃ t, exec .encode (inFlight .encode (block (black 24) [])) = .next t ∧
      (t.result == 1) = true) ∧
    ∃ t, exec .encode (inFlight .encode (block (black 29) hi)) = .next t ∧
      (t.result == 3) = true :=
  ⟨rfl, exists_of_nextSat (p := fun t => t.result == 1) (by decide +kernel),
    exists_of_nextSat (p := fun t => t.result == 3) (by decide +kernel)⟩
theorem witness_EncodeKeepsTheCarrierBits :
    (inFlight .encode (block (black 24) [])).pix.get 71 = some 0 ∧
    ∃ t, exec .encode (inFlight .encode (block (black 24) [])) = .next t ∧ true = true :=
  ⟨by decide +kernel, exists_of_nextSat (p := fun _ => true) (by decide +kernel)⟩
theorem witness_EncodeNeverWrites :
    ∃ t, exec .encode (inFlight .encode (block (black 30) hi)) = .next t ∧
      (t.result == 1) = true :=
  exists_of_nextSat (p := fun t => t.result == 1) (by decide +kernel)
/-- V12 with an empty message: V3's end state encoded again. -/
theorem witness_EncodeOfTheSameBitsLeavesPixmem :
    (inFlight .encode (block carrierV3 [])).Inv ∧
    (∃ t, exec .encode (inFlight .encode (block carrierV3 [])) = .next t ∧ true = true) ∧
    ∀ s ∈ [inFlight .encode (block carrierV3 [])], s.pending = some .encode ∧
      s.msg.initialised s.msglen.toNat ∧ s.pix.initialised (8 * (s.msglen.toNat + 9)) ∧
      ∀ a < 8 * (s.msglen.toNat + 9),
        s.pix.lsb a = streamBit (framed (s.msg.prefixBytes s.msglen.toNat)) a :=
  ⟨inv_of_check (by decide +kernel),
    exists_of_nextSat (p := fun _ => true) (by decide +kernel),
    by unfold Memory.initialised; decide +kernel⟩
theorem witness_EncodeWithoutPixels :
    ∀ s ∈ [inFlight .encode (block [] hi)], s.pending = some .encode ∧ s.npix = 0 ∧
      s.msglen.toNat ≤ s.params.msgCap.toNat ∧ s.msg.initialised s.msglen.toNat := by
  unfold Memory.initialised; decide +kernel
/-- The first clause on a bitstream that does not fit and on one that does, over channels never written and
with payload bytes that hold values; the second clause at its first and its last payload byte, the third
at its first and its last carrier byte. -/
theorem witness_EncodeOverUninitialisedBytes :
    (∀ s ∈ [{ anyValue (inFlight .encode (block [] [])) with npix := 64, msglen := 24 },
        { anyValue (inFlight .encode (block [] hi)) with npix := 64 }],
      s.pending = some .encode ∧ s.params.uninit = .anyValue ∧
      s.npix.toNat ≤ s.params.pixCap.toNat ∧ s.msglen.toNat ≤ s.params.msgCap.toNat) ∧
    (∀ p ∈ [({ inFlight .encode (block [] []) with msglen := 2 }, 0),
        ({ inFlight .encode (block [] [0x48]) with msglen := 2 }, 1)],
      p.1.pending = some .encode ∧ p.1.params.uninit = .fault ∧
      p.1.msglen.toNat ≤ p.1.params.msgCap.toNat ∧ p.2 < p.1.msglen.toNat ∧
      p.1.msg.initialised p.2 ∧ p.1.msg.get p.2 = none) ∧
    ∀ p ∈ [({ inFlight .encode (block [] []) with npix := 24 }, 0),
        ({ inFlight .encode (block (carrierV3.take 71) []) with npix := 24 }, 71)],
      p.1.pending = some .encode ∧ p.1.params.uninit = .fault ∧
      p.1.npix.toNat ≤ p.1.params.pixCap.toNat ∧ p.1.msglen.toNat ≤ p.1.params.msgCap.toNat ∧
      8 * (p.1.msglen.toNat + 9) ≤ 3 * p.1.npix.toNat ∧
      p.1.msg.initialised p.1.msglen.toNat ∧ p.2 < 8 * (p.1.msglen.toNat + 9) ∧
      p.1.pix.initialised p.2 ∧ p.1.pix.get p.2 = none := by
  unfold Memory.initialised; decide +kernel

/-! ### Witnesses: DECODE and the round trip -/

/-- V30, at the boundary k = 8 = K − 1, and V20 with k = 10. -/
theorem witness_DecodeReturnsTheFirstMatch :
    ∀ p ∈ [(inFlight .decode (block carrierV3 []), 8), (inFlight .decode (block carrierV1 []), 10)],
      p.1.pending = some .decode ∧ p.1.params.ok = true ∧
      p.1.npix.toNat ≤ p.1.params.pixCap.toNat ∧ p.2 < 3 * p.1.npix.toNat / 8 ∧
      p.1.pix.initialised (8 * (p.2 + 1)) ∧ p.1.pix.firstMatch p.2 := by
  unfold Memory.initialised Memory.firstMatch Memory.delimEndsAt; decide +kernel
theorem witness_DecodeReportsNotFound :
    ∀ s ∈ [inFlight .decode (block (black 24) [])],
      s.pending = some .decode ∧ s.npix.toNat ≤ s.params.pixCap.toNat ∧
      s.pix.initialised (8 * (3 * s.npix.toNat / 8)) ∧
      ∀ k < 3 * s.npix.toNat / 8, ¬ s.pix.delimEndsAt k := by
  unfold Memory.initialised Memory.delimEndsAt; decide +kernel
theorem witness_DecodeNeverWrites :
    ∃ t, exec .decode (inFlight .decode (block carrierV3 [])) = .next t ∧
      (t.result == 1) = true :=
  exists_of_nextSat (p := fun t => t.result == 1) (by decide +kernel)
/-- V27 under both policies. -/
theorem witness_DecodeOfASmallCarrier :
    ∀ s ∈ [inFlight .decode (block (black 23) []),
        { anyValue (inFlight .decode (block [] [])) with npix := 23 }],
      s.pending = some .decode ∧ s.npix.toNat ≤ s.params.pixCap.toNat ∧ s.npix.toNat < 24 ∧
      (s.params.uninit = .anyValue ∨ s.pix.initialised (8 * (3 * s.npix.toNat / 8))) := by
  unfold Memory.initialised; decide +kernel
/-- V21 and V22 on 24 pixels. -/
theorem witness_DecodeOfUniformLsbs :
    ∀ p ∈ [(inFlight .decode (block (black 24) []), false),
        (inFlight .decode (block (List.replicate 72 0x55) []), true)],
      p.1.pending = some .decode ∧ p.1.npix.toNat ≤ p.1.params.pixCap.toNat ∧
      p.1.pix.initialised (3 * p.1.npix.toNat) ∧
      ∀ a < 3 * p.1.npix.toNat, p.1.pix.lsb a = p.2 := by
  unfold Memory.initialised; decide +kernel
/-- Two carriers that differ in every upper bit. -/
theorem witness_DecodeIsPure :
    ∀ p ∈ [(inFlight .decode (block carrierV3 []),
        inFlight .decode (block (carrierV3.map (· ||| 0xFE)) hi))],
      p.1.pending = some .decode ∧ p.2.pending = some .decode ∧ p.1.params.ok = true ∧
      p.2.params.ok = true ∧ p.2.npix = p.1.npix ∧ p.1.npix.toNat ≤ p.1.params.pixCap.toNat ∧
      p.2.npix.toNat ≤ p.2.params.pixCap.toNat ∧ p.1.pix.initialised (3 * p.1.npix.toNat) ∧
      p.2.pix.initialised (3 * p.1.npix.toNat) ∧
      ∀ a < 3 * p.1.npix.toNat, p.2.pix.lsb a = p.1.pix.lsb a := by
  unfold Memory.initialised; decide +kernel
theorem witness_DecodeIsRobust :
    ∀ s ∈ [{ inFlight .decode (block [] []) with npix := 64 }],
      s.pending = some .decode ∧ s.params.ok = true ∧
      s.npix.toNat ≤ s.params.pixCap.toNat := by decide
/-- The states of V1 with V20 (the round trip holds) and of V25 (it does not). -/
theorem witness_RoundTrip :
    (∀ s ∈ [block (black 30) hi, block (black 54) tricky],
      s.pending = none ∧ s.params.ok = true ∧ s.npix.toNat ≤ s.params.pixCap.toNat ∧
      s.msglen.toNat ≤ s.params.msgCap.toNat ∧ 8 * (s.msglen.toNat + 9) ≤ 3 * s.npix.toNat ∧
      s.msg.initialised s.msglen.toNat ∧ s.pix.initialised (8 * (s.msglen.toNat + 9))) ∧
    (¬ delim <:+: hi ++ delim.take 8) ∧ delim <:+: tricky ++ delim.take 8 := by
  unfold Memory.initialised; decide +kernel
/-- V25 with p = 1. -/
theorem witness_RoundTripStopsAtTheFirstDelimiter :
    ∀ s ∈ [block (black 54) tricky],
      s.pending = none ∧ s.params.ok = true ∧ s.npix.toNat ≤ s.params.pixCap.toNat ∧
      s.msglen.toNat ≤ s.params.msgCap.toNat ∧ 8 * (s.msglen.toNat + 9) ≤ 3 * s.npix.toNat ∧
      s.msg.initialised s.msglen.toNat ∧ s.pix.initialised (8 * (s.msglen.toNat + 9)) ∧
      delim <+: (s.msg.prefixBytes s.msglen.toNat ++ delim.take 8).drop 1 ∧
      ∀ q < 1, ¬ delim <+: (s.msg.prefixBytes s.msglen.toNat ++ delim.take 8).drop q := by
  unfold Memory.initialised; decide +kernel
/-- "HI" encoded with 31 pixels and decoded with 30, the fewest that hold its 11 units. -/
theorem witness_RoundTripWithAnotherNpix :
    ∀ p ∈ [(block (black 31) hi, 30#32)],
      p.1.pending = none ∧ p.1.params.ok = true ∧ p.1.npix.toNat ≤ p.1.params.pixCap.toNat ∧
      p.1.msglen.toNat ≤ p.1.params.msgCap.toNat ∧
      8 * (p.1.msglen.toNat + 9) ≤ 3 * p.1.npix.toNat ∧
      p.1.msg.initialised p.1.msglen.toNat ∧
      p.1.pix.initialised (8 * (p.1.msglen.toNat + 9)) ∧
      (¬ delim <:+: p.1.msg.prefixBytes p.1.msglen.toNat ++ delim.take 8) ∧
      p.2.toNat ≤ p.1.params.pixCap.toNat ∧ p.1.msglen.toNat + 9 ≤ 3 * p.2.toNat / 8 := by
  unfold Memory.initialised; decide +kernel

/-! ### Witnesses: the host port and the host's notation -/

/-- V50 to V52: the first address of each space that does not exist. -/
theorem witness_RangeIsCheckedFirst :
    (does (.regWrite 8 0) (block [] [])).hostNext (.transaction (.regWrite 8 0)) [] ∧
    (does (.pixWrite 192 0) (block [] [])).hostNext (.transaction (.pixWrite 192 0)) [] ∧
    (does (.msgRead 24) (block [] [])).hostNext (.transaction (.msgRead 24)) [] ∧
    8 ≤ (8#32).toNat ∧ 3 * (block [] []).params.pixCap.toNat ≤ (192#32).toNat ∧
    (block [] []).params.msgCap.toNat ≤ (24#32).toNat :=
  ⟨⟨rfl, rfl⟩, ⟨rfl, rfl⟩, ⟨rfl, rfl⟩, by decide, by decide, by decide⟩
/-- The last address of each space, and RegRead(STATUS). -/
theorem witness_BusyLocksTheHostOut (c : Command) :
    ∀ x ∈ [Transaction.regWrite 7 0, .pixRead 191, .msgWrite 23 0, .regRead 1],
      (does x (inFlight c (block [] []))).hostNext (.transaction x) [] ∧
      (does x (inFlight c (block [] []))).busy = true ∧
      inRange (does x (inFlight c (block [] []))) x = true := by
  intro x hx
  refine ⟨⟨rfl, rfl⟩, (by decide : busyBit 1 = true), ?_⟩
  revert x; cases c <;> decide
theorem witness_ReadOnlyRegistersRejectWrites :
    ∀ x ∈ [Transaction.regWrite 1 0, .regWrite 4 5, .regWrite 5 0, .regWrite 6 0, .regWrite 7 0,
        .regRead 0],
      (does x (block [] [])).hostNext (.transaction x) [] ∧ (does x (block [] [])).busy = false :=
  fun _ _ => ⟨⟨rfl, rfl⟩, (by decide : (block [] []).busy = false)⟩
theorem witness_ErrorsChangeNoState :
    (does (.regRead 8) (block [] [])).hostNext (.transaction (.regRead 8)) [] ∧
      step (does (.regRead 8) (block [] [])) =
        .next { block [] [] with responses := [⟨.err .range, false⟩] } := ⟨⟨rfl, rfl⟩, rfl⟩
theorem witness_RegisterReads :
    ∀ r ∈ [(0 : Word), 1, 2, 3, 4, 5, 6, 7],
      (does (.regRead r) (block [] [])).hostNext (.transaction (.regRead r)) [] ∧
      (does (.regRead r) (block [] [])).busy = false ∧ r.toNat < 8 := by
  intro r hr
  refine ⟨⟨rfl, rfl⟩, (by decide : (block [] []).busy = false), ?_⟩
  simp only [List.mem_cons, List.not_mem_nil, or_false] at hr
  rcases hr with rfl | rfl | rfl | rfl | rfl | rfl | rfl | rfl <;> decide
theorem witness_CountsStoreAnyValue :
    (does (.regWrite 2 0xFFFFFFFF) (block [] [])).hostNext
        (.transaction (.regWrite 2 0xFFFFFFFF)) [] ∧
      (does (.regWrite 3 0xFFFFFFFF) (block [] [])).hostNext
        (.transaction (.regWrite 3 0xFFFFFFFF)) [] ∧
      (block [] []).busy = false := ⟨⟨rfl, rfl⟩, ⟨rfl, rfl⟩, rfl⟩
theorem witness_HostAccessToPixmem :
    (does (.pixRead 2) (block (bytes 3 0x010203) [])).hostNext (.transaction (.pixRead 2)) [] ∧
      (does (.pixRead 2) (block (bytes 3 0x010203) [])).pix.get 2 = some 3 ∧
      (does (.pixWrite 191 7) (block [] [])).hostNext (.transaction (.pixWrite 191 7)) [] ∧
      (191#32).toNat < 3 * (block [] []).params.pixCap.toNat ∧ (block [] []).busy = false :=
  ⟨⟨rfl, rfl⟩, by decide, ⟨rfl, rfl⟩, by decide, rfl⟩
theorem witness_HostAccessToMsgbuf :
    (does (.msgRead 1) (block [] hi)).hostNext (.transaction (.msgRead 1)) [] ∧
      (does (.msgRead 1) (block [] hi)).msg.get 1 = some 0x49 ∧
      (does (.msgWrite 23 7) (block [] [])).hostNext (.transaction (.msgWrite 23 7)) [] ∧
      (23#32).toNat < (block [] []).params.msgCap.toNat ∧ (block [] []).busy = false :=
  ⟨⟨rfl, rfl⟩, by decide, ⟨rfl, rfl⟩, by decide, rfl⟩
theorem witness_HostReadOfUninitialisedByte :
    ((does (.pixRead 191) (block [] [])).hostNext (.transaction (.pixRead 191)) [] ∧
      (191#32).toNat < (block [] []).extent .pix ∧ ((block [] []).mem .pix).get 191 = none ∧
      (block [] []).params.uninit = .fault ∧ (block [] []).busy = false) ∧
    (does (.msgRead 23) (anyValue (block [] []))).hostNext (.transaction (.msgRead 23)) [] ∧
      (23#32).toNat < (anyValue (block [] [])).extent .msg ∧
      ((anyValue (block [] [])).mem .msg).get 23 = none ∧
      (anyValue (block [] [])).params.uninit = .anyValue ∧ (anyValue (block [] [])).busy = false :=
  ⟨⟨⟨rfl, rfl⟩, by decide, rfl, rfl, rfl⟩, ⟨rfl, rfl⟩, by decide, rfl, rfl, rfl⟩
theorem witness_ReadsHaveNoSideEffect :
    (does (.msgRead 1) (block [] hi)).hostNext (.transaction (.msgRead 1)) [] ∧
      step (does (.msgRead 1) (block [] hi)) =
        .next { block [] hi with responses := [⟨.ok 0x49, false⟩] } := ⟨⟨rfl, rfl⟩, rfl⟩
theorem witness_HostTurnsWhileBusyChangeNothing :
    (does (.pixWrite 0 0xAA) (inFlight .encode (block [] []))).busy = true ∧
    engineTurn (does (.pixWrite 0 0xAA) (inFlight .encode (block [] []))) = none ∧
    ¬ (does (.pixWrite 0 0xAA) (inFlight .encode (block [] []))).resetsNext ∧
    step (does (.pixWrite 0 0xAA) (inFlight .encode (block [] []))) =
      .next { inFlight .encode (block [] []) with delay := 0, responses := [⟨.err .busy, false⟩] } :=
  ⟨rfl, rfl, by simp [State.resetsNext, does, asks], rfl⟩
theorem witness_WaitPollsStatus :
    ((asks .wait (inFlight .encode (block [] []))).hostNext .wait [] ∧
      (asks .wait (inFlight .encode (block [] []))).status.getLsbD 0 = true) ∧
    (asks .wait (block [] [])).hostNext .wait [] ∧
      (asks .wait (block [] [])).status.getLsbD 0 = false :=
  ⟨⟨⟨rfl, rfl⟩, rfl⟩, ⟨rfl, rfl⟩, rfl⟩
theorem witness_LatencyIsNotObserved :
    (asks .wait (inFlight .encode (block (black 24) []))).busy = true ∧
    (asks .wait (inFlight .encode (block (black 24) []))).pending = some .encode ∧
    (asks .wait (inFlight .encode (block (black 24) []))).host = [.wait] ∧
    ∃ t, exec (Command.instr .encode) (asks .wait (inFlight .encode (block (black 24) []))) =
      .next t ∧ (t.result == 1) = true :=
  ⟨rfl, rfl, rfl, exists_of_nextSat (p := fun t => t.result == 1) (by decide +kernel)⟩
theorem witness_GetmsgReadsTheMessage :
    ((asks .getmsg { block [] hi with reslen := 2 }).hostNext .getmsg [] ∧
      (asks .getmsg { block [] hi with reslen := 2 }).busy = false) ∧
    (asks .getmsg (inFlight .encode (block [] []))).hostNext .getmsg [] ∧
      (asks .getmsg (inFlight .encode (block [] []))).busy = true :=
  ⟨⟨⟨rfl, rfl⟩, rfl⟩, ⟨rfl, rfl⟩, rfl⟩
/-- P1, line 1: the last of the 90 PixWrites, and NPIX after it. -/
theorem witness_FillpixWritesEveryChannel : 29 < 30 ∧ 2 < 3 ∧ 3 * 1431655764 + 2 < 2 ^ 32 ∧
    4294967295 < 2 ^ 32 ∧
    (fillpix 30 0 0 7)[3 * 29 + 2]? = some (wpix 89 7) ∧
    (fillpix 30 0 0 7)[90]? = some (wreg .npix 30) := by decide +kernel
theorem witness_SetmsgExpandsOrRejects : (∀ c ∈ [0x48, 255], c ≤ 255) ∧
    [0x48, 255].length < 2 ^ 32 ∧ bytesOfString [0x48, 255] = .ok [0x48, 0xFF] ∧ 256 ∈ [0x48, 256] ∧
    255 < 256 := by decide

/-! ### Witnesses: reset and the whole machine -/

theorem witness_PowerOnResetClearsTheBlock :
    (asks .powerOnReset (inFlight .encode (block (black 1) hi))).hostNext .powerOnReset [] :=
  ⟨rfl, rfl⟩
theorem witness_WarmResetKeepsTheMemories :
    ((asks .warmReset (block (black 1) hi)).hostNext .warmReset [] ∧
      (block (black 1) hi).pending = none) ∧
    (∀ c, (asks .warmReset (inFlight c (block (black 1) hi))).hostNext .warmReset [] ∧
      (inFlight c (block (black 1) hi)).pending = some c) ∧
    (block (black 1) hi).pix.fill = .uninit :=
  ⟨⟨⟨rfl, rfl⟩, rfl⟩, fun _ => ⟨⟨rfl, rfl⟩, rfl⟩, rfl⟩
theorem witness_StepKeepsTheInvariant : (inFlight .encode (block (black 24) [])).Inv ∧
    ∃ t, step (inFlight .encode (block (black 24) [])) = .next t ∧ (t.result == 1) = true :=
  ⟨inv_inFlight_encode, exists_of_nextSat (p := fun t => t.result == 1) (by decide +kernel)⟩
theorem witness_EngineAddressesAreInRange : (inFlight .encode (block (black 24) [])).Inv :=
  inv_inFlight_encode
/-- Both alternatives occur. -/
theorem witness_StepStopsOnlyAtUninitialisedReads : (inFlight .decode (block carrierV1 [])).Inv ∧
    (does (.pixRead 191) (block (black 3) hi)).Inv ∧
    step (does (.pixRead 191) (block (black 3) hi)) = .fault (.uninitialisedRead .pix 191) :=
  ⟨inv_inFlight_decode, inv_of_check (by decide +kernel), rfl⟩
theorem witness_ParametersNeverChange :
    step (does (.regWrite 6 0) (block [] [])) =
      .next { block [] [] with responses := [⟨.err .readOnly, false⟩] } := rfl
/-- One state for each writable register; STATUS by the host here, by the engine in the second. -/
theorem witness_ControlRegistersChangeOnlyByTheirWriters :
    (({ inFlight .decode (block carrierV3 []) with reslen := 5 } : State).Inv ∧
      ¬ ({ inFlight .decode (block carrierV3 []) with reslen := 5 } : State).resetsNext ∧
      ∃ t, step { inFlight .decode (block carrierV3 []) with reslen := 5 } = .next t ∧
        (t.reslen != 5) = true) ∧
    ((inFlight .encode (block (black 24) [])).Inv ∧
      ¬ (inFlight .encode (block (black 24) [])).resetsNext ∧
      ∃ t, step (inFlight .encode (block (black 24) [])) = .next t ∧
        (t.maxchars != 0) = true) ∧
    ((does (.regWrite 2 9) (block (black 3) hi)).Inv ∧
      ¬ (does (.regWrite 2 9) (block (black 3) hi)).resetsNext ∧
      ∃ t, step (does (.regWrite 2 9) (block (black 3) hi)) = .next t ∧ (t.npix != 3) = true) ∧
    ((does (.regWrite 3 9) (block (black 3) hi)).Inv ∧
      ¬ (does (.regWrite 3 9) (block (black 3) hi)).resetsNext ∧
      ∃ t, step (does (.regWrite 3 9) (block (black 3) hi)) = .next t ∧ (t.msglen != 2) = true) ∧
    (does (.regWrite 0 3) (block (black 3) hi)).Inv ∧
      ¬ (does (.regWrite 0 3) (block (black 3) hi)).resetsNext ∧
      ∃ t, step (does (.regWrite 0 3) (block (black 3) hi)) = .next t ∧ (t.status != 0) = true :=
  ⟨⟨inv_of_check (by decide +kernel), by simp [State.resetsNext, inFlight, block, State.reset],
      exists_of_nextSat (p := fun t => t.reslen != 5) (by decide +kernel)⟩,
    ⟨inv_inFlight_encode, by simp [State.resetsNext, inFlight, block, State.reset],
      exists_of_nextSat (p := fun t => t.maxchars != 0) (by decide +kernel)⟩,
    ⟨inv_of_check (by decide +kernel), by simp [State.resetsNext, does, asks],
      exists_of_nextSat (p := fun t => t.npix != 3) (by decide +kernel)⟩,
    ⟨inv_of_check (by decide +kernel), by simp [State.resetsNext, does, asks],
      exists_of_nextSat (p := fun t => t.msglen != 2) (by decide +kernel)⟩,
    inv_of_check (by decide +kernel), by simp [State.resetsNext, does, asks],
    exists_of_nextSat (p := fun t => t.status != 0) (by decide +kernel)⟩
/-- Each memory changed by its command and by the host. -/
theorem witness_BytesPersist :
    ((inFlight .encode (block (black 24) [])).Inv ∧
      ¬ (inFlight .encode (block (black 24) [])).resetsNext ∧
      ∃ t, step (inFlight .encode (block (black 24) [])) = .next t ∧
        (t.pix.get 1 != some 0) = true) ∧
    ((does (.pixWrite 191 7) (block (black 3) hi)).Inv ∧
      ¬ (does (.pixWrite 191 7) (block (black 3) hi)).resetsNext ∧
      ∃ t, step (does (.pixWrite 191 7) (block (black 3) hi)) = .next t ∧
        (t.pix.get 191 != none) = true) ∧
    ((inFlight .decode (block carrierV1 [])).Inv ∧
      ¬ (inFlight .decode (block carrierV1 [])).resetsNext ∧
      ∃ t, step (inFlight .decode (block carrierV1 [])) = .next t ∧
        (t.msg.get 0 != none) = true) ∧
    (does (.msgWrite 23 7) (block (black 3) hi)).Inv ∧
      ¬ (does (.msgWrite 23 7) (block (black 3) hi)).resetsNext ∧
      ∃ t, step (does (.msgWrite 23 7) (block (black 3) hi)) = .next t ∧
        (t.msg.get 23 != none) = true :=
  ⟨⟨inv_inFlight_encode, by simp [State.resetsNext, inFlight, block, State.reset],
      exists_of_nextSat (p := fun t => t.pix.get 1 != some 0) (by decide +kernel)⟩,
    ⟨inv_of_check (by decide +kernel), by simp [State.resetsNext, does, asks],
      exists_of_nextSat (p := fun t => t.pix.get 191 != none) (by decide +kernel)⟩,
    ⟨inv_inFlight_decode, by simp [State.resetsNext, inFlight, block, State.reset],
      exists_of_nextSat (p := fun t => t.msg.get 0 != none) (by decide +kernel)⟩,
    inv_of_check (by decide +kernel), by simp [State.resetsNext, does, asks],
    exists_of_nextSat (p := fun t => t.msg.get 23 != none) (by decide +kernel)⟩
theorem witness_ReservedStatusBitsAreNeverWritten :
    (does (.regRead 1) (block (black 3) hi)).Inv ∧
      (does (.regRead 1) (block (black 3) hi)).hostNext (.transaction (.regRead 1)) [] ∧
      ∃ t, step (does (.regRead 1) (block (black 3) hi)) = .next t ∧ true = true :=
  ⟨inv_of_check (by decide +kernel), ⟨rfl, rfl⟩,
    exists_of_nextSat (p := fun _ => true) (by decide +kernel)⟩
theorem witness_ResultChangesOnlyWithACommand :
    (∃ t, step (inFlight .decode (block carrierV1 [])) = .next t ∧ (t.result != 0) = true) ∧
    ¬ (inFlight .decode (block carrierV1 [])).resetsNext ∧
    (∃ t, step (does (.regWrite 0 3) (block [] [])) = .next t ∧ (t.result != 0) = true) ∧
    ¬ (does (.regWrite 0 3) (block [] [])).resetsNext :=
  ⟨exists_of_nextSat (p := fun t => t.result != 0) (by decide +kernel),
    by simp [State.resetsNext, inFlight, block, State.reset],
    exists_of_nextSat (p := fun t => t.result != 0) (by decide +kernel),
    by simp [State.resetsNext, does, asks]⟩

/-- V41, V9, V7 and V21: one failure of each kind. -/
theorem witness_FailuresChangeOnlyWhatIsListed :
    (∃ t, exec (.illegal 3 0) (block [] []) = .next t ∧ (t.result == 4) = true) ∧
    (∃ t, exec .encode { block [] [] with npix := 65 } = .next t ∧ (t.result == 5) = true) ∧
    (∃ t, exec .encode (inFlight .encode (block (black 29) hi)) = .next t ∧
      (t.result == 3) = true) ∧
    ∃ t, exec .decode (inFlight .decode (block (black 30) [])) = .next t ∧
      (t.result == 2) = true :=
  ⟨exists_of_nextSat (p := fun t => t.result == 4) (by decide +kernel),
    exists_of_nextSat (p := fun t => t.result == 5) (by decide +kernel),
    exists_of_nextSat (p := fun t => t.result == 3) (by decide +kernel),
    exists_of_nextSat (p := fun t => t.result == 2) (by decide +kernel)⟩

end Sys2Proof.Tests
end

section
/-! SUPPORT. What a command word and a host event can do to the state, said once. -/

namespace Sys2Proof.Machine

variable {s t : State}

/-! ### Writes and completions -/

/-- Writes that succeed fill the run of addresses, and stay within the space. -/
theorem writeBytes_ok {sp : Space} {bs : List Byte} {a : Nat} (h : writeBytes sp bs a s = .ok t) :
    t = s.withMem sp ((s.mem sp).setMany a bs) ∧
      ((s.mem sp).below (s.extent sp) → ((s.mem sp).setMany a bs).below (s.extent sp)) := by
  induction bs generalizing a s with
  | nil =>
    simp only [writeBytes, Except.ok.injEq] at h
    exact ⟨by simp [Memory.setMany, h], id⟩
  | cons v vs ih =>
    simp only [writeBytes] at h
    split at h
    · simp at h
    · rename_i s1 h1
      obtain ⟨ha, rfl⟩ := memWrite_ok h1
      obtain ⟨rfl, hb⟩ := ih h
      simp only [mem_withMem, extent_withMem] at hb
      exact ⟨by simp [Memory.setMany], fun hm => hb (Memory.below_set hm ha v)⟩

/-- The frame of ENCODE's completion (R104, R110). -/
theorem encodeCompletion_frame (h : encodeCompletion s = .next t) :
    ∃ k, t = complete k
        { s with maxchars := BitVec.ofNat 32 s.units, pix := t.pix, draws := t.draws } ∧
      t.pix.fill = s.pix.fill ∧ (s.pix.wf → t.pix.wf) ∧
      (s.pix.below (s.extent .pix) → t.pix.below (s.extent .pix)) := by
  obtain ⟨m, s1, -, hs1, ⟨-, rfl⟩ | ⟨-, s2, hpack, rfl⟩⟩ := encodeCompletion_next h
  · rw [hs1]
    exact ⟨.capacityExceeded, rfl, rfl, id, id⟩
  · obtain ⟨hs2, hfill, hwf, hbelow, -⟩ := packBits_ok hpack
    rw [hs1] at hs2 hfill hwf hbelow
    exact ⟨.ok, congrArg (complete .ok) hs2, hfill, hwf, hbelow⟩

/-- The frame of DECODE's completion (R130, R138). -/
theorem decodeCompletion_frame (h : decodeCompletion s = .next t) :
    ∃ k n, n ≤ s.units - 9 ∧
      t = complete k { s with reslen := BitVec.ofNat 32 n, msg := t.msg, draws := t.draws } ∧
      t.msg.wf ∧ t.msg.below (s.extent .msg) := by
  obtain ⟨r, s1, -, hs1, ⟨-, rfl⟩ | ⟨m, s2, -, hm, hwrite, rfl⟩⟩ := decodeCompletion_next h
  · rw [hs1]
    exact ⟨.notFound, 0, Nat.zero_le _, rfl, Memory.wf_scratch _, Memory.below_scratch _ _⟩
  · obtain ⟨rfl, hbelow⟩ := writeBytes_ok hwrite
    rw [hs1] at hbelow ⊢
    exact ⟨.ok, m.length, hm, rfl, Memory.wf_setMany m (Memory.wf_scratch _) 0,
      hbelow (Memory.below_scratch _ _)⟩

/-! ### A command word -/

/-- What the command word `i` can make of the state `s` (R160 to R166), but for the bytes a completion
writes. -/
inductive ExecEffect (i : Instr) (s : State) : State → Prop
  /-- NOP, or a command that comes while another one is in flight. -/
  | unchanged : ExecEffect i s s
  /-- An illegal word, or a command whose configuration check fails. -/
  | rejected (k : ResultCode) (hi : i ≠ .nop) (hp : s.pending = none) :
      ExecEffect i s (recordResult k s)
  | accepted (c : Command) (hi : i = c.instr) (hp : s.pending = none) (hc : configOk c s = true) :
      ExecEffect i s (accept c s)
  /-- ENCODE's completion, which leaves the PIXMEM `m`. -/
  | encoded (k : ResultCode) (m : Memory) (d : Nat) (hi : i = .encode)
      (hp : s.pending = some .encode) (hfill : m.fill = s.pix.fill) (hwf : s.pix.wf → m.wf)
      (hbelow : s.pix.below (s.extent .pix) → m.below (s.extent .pix)) :
      ExecEffect i s
        (complete k { s with maxchars := BitVec.ofNat 32 s.units, pix := m, draws := d })
  /-- DECODE's completion with a message of `n` bytes, which leaves the MSGBUF `m`. -/
  | decoded (k : ResultCode) (n : Nat) (m : Memory) (d : Nat) (hi : i = .decode)
      (hp : s.pending = some .decode) (hn : n ≤ s.units - 9) (hwf : m.wf)
      (hbelow : m.below (s.extent .msg)) :
      ExecEffect i s (complete k { s with reslen := BitVec.ofNat 32 n, msg := m, draws := d })

theorem exec_instr_idle (c : Command) (hp : s.pending = none) :
    exec c.instr s = .next (issue c s) := by
  cases c with
  | encode => exact exec_encode_idle hp
  | decode => exact exec_decode_idle hp

/-- Everything a command word that ends in a next state can do. -/
theorem exec_next {i : Instr} (h : exec i s = .next t) : ExecEffect i s t := by
  have issued (c : Command) (hp : s.pending = none) (h : exec c.instr s = .next t) :
      ExecEffect c.instr s t := by
    rw [exec_instr_idle c hp, Host.Outcome.next.injEq] at h
    rcases issue_cases c s with ⟨hc, hi⟩ | ⟨-, hi⟩ <;> rw [← h, hi]
    · exact .accepted c rfl hp hc
    · exact .rejected .badConfig (by cases c <;> simp [Command.instr]) hp
  cases i with
  | nop =>
    obtain rfl : s = t := by simpa [exec, execNop] using h
    exact .unchanged
  | encode =>
    match hp : s.pending with
    | none => exact issued .encode hp h
    | some .encode =>
      rw [exec_encode_inFlight hp] at h
      obtain ⟨k, ht, hfill, hwf, hbelow⟩ := encodeCompletion_frame h
      rw [ht]
      exact .encoded k t.pix t.draws rfl hp hfill hwf hbelow
    | some .decode =>
      obtain rfl : s = t := by simpa [exec, execEncode, hp] using h
      exact .unchanged
  | decode =>
    match hp : s.pending with
    | none => exact issued .decode hp h
    | some .decode =>
      rw [exec_decode_inFlight hp] at h
      obtain ⟨k, n, hn, ht, hwf, hbelow⟩ := decodeCompletion_frame h
      rw [ht]
      exact .decoded k n t.msg t.draws rfl hp hn hwf hbelow
    | some .encode =>
      obtain rfl : s = t := by simpa [exec, execDecode, hp] using h
      exact .unchanged
  | illegal opc mbz =>
    cases hp : s.pending with
    | none =>
      obtain rfl : recordResult .illegalCommand s = t := by simpa [exec, execIllegal, hp] using h
      exact .rejected .illegalCommand (by simp) hp
    | some c =>
      obtain rfl : s = t := by simpa [exec, execIllegal, hp] using h
      exact .unchanged

/-! ### A host event -/

/-- What the host event `e` can make of the state `s` (R54 to R59, R92, R95, R200). -/
inductive HostEffect (e : HostEvent) (s : State) : State → Prop
  /-- A read, a refused transaction, `wait` or `getmsg`: only the host's side and the draw counter. -/
  | answered (d : Nat) (es : List HostEvent) (rs : List Received) :
      HostEffect e s { s with draws := d, host := es, responses := rs }
  | command (w : Word) (t : State) (he : e = .transaction (.regWrite Reg.cmd.index w))
      (hb : s.busy = false) (ht : ExecEffect (decodeWord w) s t) :
      HostEffect e s (respond (.ok 0) t)
  | npixWrite (v : Word) (he : e = .transaction (.regWrite Reg.npix.index v))
      (hb : s.busy = false) : HostEffect e s (respond (.ok 0) { s with npix := v })
  | msglenWrite (v : Word) (he : e = .transaction (.regWrite Reg.msglen.index v))
      (hb : s.busy = false) : HostEffect e s (respond (.ok 0) { s with msglen := v })
  | pixWrite (a : Word) (v : Byte) (he : e = .transaction (.pixWrite a v)) (hb : s.busy = false)
      (ha : a.toNat < s.extent .pix) :
      HostEffect e s (respond (.ok 0) { s with pix := s.pix.set a.toNat v })
  | msgWrite (a : Word) (v : Byte) (he : e = .transaction (.msgWrite a v)) (hb : s.busy = false)
      (ha : a.toNat < s.extent .msg) :
      HostEffect e s (respond (.ok 0) { s with msg := s.msg.set a.toNat v })
  | powerOnReset (he : e = .powerOnReset) : HostEffect e s (powerOnReset s)
  | warmReset (he : e = .warmReset) : HostEffect e s (warmReset s)

/-- A transaction that passes the lockout comes while the block is idle, but for RegRead(STATUS)
(R57). -/
theorem busy_eq_false_of_portCheck {tx : Transaction} (h : portCheck s tx = none)
    (ht : tx ≠ .regRead Reg.status.index) : s.busy = false :=
  (portCheck_none.1 h).2.1.resolve_right ht

theorem hostTransaction_next {tx : Transaction} (h : hostTransaction tx s = .next t) :
    HostEffect (.transaction tx) s t := by
  cases hc : portCheck s tx with
  | some k =>
    obtain rfl : respond (.err k) s = t := by simpa [hostTransaction_error hc] using h
    exact .answered ..
  | none =>
    have idle := busy_eq_false_of_portCheck hc
    rw [hostTransaction_performed hc] at h
    rcases performTransaction_next h with ⟨k, n, rfl⟩ | ⟨w, t1, rfl, hx, rfl⟩ | ⟨v, rfl, rfl⟩ |
      ⟨v, rfl, rfl⟩ | ⟨a, v, rfl, ha, rfl⟩ | ⟨a, v, rfl, ha, rfl⟩
    · exact .answered ..
    · exact .command w t1 rfl (idle nofun) (exec_next hx)
    · exact .npixWrite v rfl (idle nofun)
    · exact .msglenWrite v rfl (idle nofun)
    · exact .pixWrite a v rfl (idle nofun) ha
    · exact .msgWrite a v rfl (idle nofun) ha

/-- Everything a host event that ends in a next state can do. -/
theorem hostEvent_next {e : HostEvent} (h : hostEvent e s = .next t) : HostEffect e s t := by
  cases e with
  | transaction tx => exact hostTransaction_next h
  | wait =>
    simp only [hostEvent, Host.Outcome.next.injEq] at h
    split at h <;> subst h <;> exact .answered ..
  | getmsg =>
    simp only [hostEvent] at h
    split at h <;> simp only [Host.Outcome.next.injEq] at h <;> subst h <;> exact .answered ..
  | powerOnReset =>
    obtain rfl : powerOnReset s = t := by simpa [hostEvent] using h
    exact .powerOnReset rfl
  | warmReset =>
    obtain rfl : warmReset s = t := by simpa [hostEvent] using h
    exact .warmReset rfl

end Sys2Proof.Machine
end

section
/-! PROOF. Every step keeps the invariant of the block (O51): one lemma per effect of
`ExecEffect` and `HostEffect`. -/

namespace Sys2Proof.Machine

variable {s t : State}

/-! ### What the invariant rests on -/

/-- The invariant speaks of the block only. -/
theorem State.sameBlock.inv (h : s.sameBlock t) (hs : s.Inv) : t.Inv := by
  obtain ⟨hparams, hstatus, hnpix, hmsglen, hreslen, hmaxchars, hpending, hpix, hmsg⟩ := h
  cases s
  cases t
  subst hparams hstatus hnpix hmsglen hreslen hmaxchars hpending hpix hmsg
  exact { hs with }

theorem sameBlock_respond (r : Response) (s : State) : s.sameBlock (respond r s) :=
  ⟨rfl, rfl, rfl, rfl, rfl, rfl, rfl, rfl, rfl⟩

theorem sameBlock_takeEvent (rest : List HostEvent) (s : State) :
    s.sameBlock (takeEvent rest s) :=
  ⟨rfl, rfl, rfl, rfl, rfl, rfl, rfl, rfl, rfl⟩

theorem State.Inv.pending_eq_none (hs : s.Inv) (hb : s.busy = false) : s.pending = none := by
  by_contra hp
  simp [hs.busyIff.2 hp] at hb

theorem State.Inv.busy_eq_false (hs : s.Inv) (hp : s.pending = none) : s.busy = false := by
  by_contra hb
  exact hs.busyIff.1 (by simpa using hb) hp

/-- PIX_CAP pixels hold no more units than MSGBUF has bytes (R10). -/
theorem State.Inv.pixUnits_le (hs : s.Inv) :
    3 * s.params.pixCap.toNat / 8 ≤ s.params.msgCap.toNat := by
  have h := hs.params
  simp only [Params.ok, Bool.and_eq_true, decide_eq_true_eq] at h
  exact h.2

/-- Both commands check NPIX (R163). -/
theorem npix_le_of_configOk {c : Command} (h : configOk c s = true) :
    s.npix.toNat ≤ s.params.pixCap.toNat := by
  cases c with
  | encode => simp only [configOk, Bool.and_eq_true, decide_eq_true_eq] at h; exact h.1
  | decode => simpa [configOk] using h

/-- A carrier in flight has at most the units of PIX_CAP pixels (R133, R163). -/
theorem State.Inv.units_le (hs : s.Inv) {c : Command} (hp : s.pending = some c) :
    s.units ≤ 3 * s.params.pixCap.toNat / 8 :=
  Nat.div_le_div_right (Nat.mul_le_mul_left 3 (npix_le_of_configOk (hs.accepted c hp)))

/-! ### A command word -/

theorem inv_recordResult (k : ResultCode) (hs : s.Inv) (hp : s.pending = none) :
    (recordResult k s).Inv :=
  { hs with
    reserved := by simp [hs.reserved]
    resultCode := ⟨k, by simp⟩
    busyIff := by simpa using hs.busyIff
    busyResult := by simp [hs.busy_eq_false hp] }

theorem inv_accept {c : Command} (hs : s.Inv) (hc : configOk c s = true) : (accept c s).Inv :=
  { hs with
    reserved := by simp [hs.reserved]
    resultCode := ⟨.none, by simp⟩
    busyIff := by simp
    busyResult := by simp
    accepted := by rintro d ⟨⟩; exact hc }

/-- A completion meets the invariant as soon as the rest of the state does. -/
theorem inv_complete (k : ResultCode) (hs : s.Inv) : (complete k s).Inv :=
  { hs with
    reserved := by simp [hs.reserved]
    resultCode := ⟨k, by simp⟩
    busyIff := by simp
    busyResult := by simp
    accepted := nofun }

theorem inv_encoded {m : Memory} (d : Nat) (hs : s.Inv) (hp : s.pending = some .encode)
    (hfill : m.fill = s.pix.fill) (hwf : m.wf) (hbelow : m.below (s.extent .pix)) :
    State.Inv { s with maxchars := BitVec.ofNat 32 s.units, pix := m, draws := d } :=
  { hs with
    pixWf := hwf
    pixBelow := hbelow
    pixFill := hfill.trans hs.pixFill
    maxchars := by
      rw [BitVec.toNat_ofNat]
      exact (Nat.mod_le _ _).trans (hs.units_le hp) }

theorem inv_decoded {m : Memory} {n : Nat} (d : Nat) (hs : s.Inv) (hp : s.pending = some .decode)
    (hn : n ≤ s.units - 9) (hwf : m.wf) (hbelow : m.below (s.extent .msg)) :
    State.Inv { s with reslen := BitVec.ofNat 32 n, msg := m, draws := d } :=
  { hs with
    msgWf := hwf
    msgBelow := hbelow
    reslen := by
      rw [BitVec.toNat_ofNat]
      exact (Nat.mod_le _ _).trans (hn.trans (Nat.sub_le_sub_right (hs.units_le hp) 9)) }

theorem ExecEffect.inv {i : Instr} (h : ExecEffect i s t) (hs : s.Inv) : t.Inv := by
  cases h with
  | unchanged => exact hs
  | rejected k _ hp => exact inv_recordResult k hs hp
  | accepted c _ _ hc => exact inv_accept hs hc
  | encoded k m d _ hp hfill hwf hbelow =>
    exact inv_complete k (inv_encoded d hs hp hfill (hwf hs.pixWf) (hbelow hs.pixBelow))
  | decoded k n m d _ hp hn hwf hbelow => exact inv_complete k (inv_decoded d hs hp hn hwf hbelow)

/-! ### A host event -/

theorem inv_npixWrite (v : Word) (hs : s.Inv) (hp : s.pending = none) :
    State.Inv { s with npix := v } :=
  { hs with accepted := by simp [hp] }

theorem inv_msglenWrite (v : Word) (hs : s.Inv) (hp : s.pending = none) :
    State.Inv { s with msglen := v } :=
  { hs with accepted := by simp [hp] }

theorem inv_pixWrite {a : Nat} (v : Byte) (hs : s.Inv) (ha : a < s.extent .pix) :
    State.Inv { s with pix := s.pix.set a v } :=
  { hs with
    pixWf := Memory.wf_set hs.pixWf a v
    pixBelow := Memory.below_set hs.pixBelow ha v }

theorem inv_msgWrite {a : Nat} (v : Byte) (hs : s.Inv) (ha : a < s.extent .msg) :
    State.Inv { s with msg := s.msg.set a v } :=
  { hs with
    msgWf := Memory.wf_set hs.msgWf a v
    msgBelow := Memory.below_set hs.msgBelow ha v }

@[simp] theorem busy_resetRegisters (s : State) : (resetRegisters s).busy = false := by
  simp [State.busy, busyBit]

@[simp] theorem result_resetRegisters (s : State) :
    (resetRegisters s).result = ResultCode.none.code := by
  simp [State.result, resultField, ResultCode.code]

theorem inv_resetRegisters (hs : s.Inv) : (resetRegisters s).Inv :=
  { hs with
    reserved := by simp [reservedBits]
    resultCode := ⟨.none, by simp⟩
    busyIff := by simp
    busyResult := by simp
    accepted := nofun
    reslen := Nat.zero_le _
    maxchars := Nat.zero_le _ }

/-- Forgetting a memory, or part of it, keeps the invariant (R201, R202). -/
theorem inv_forgotten {p m : Memory} (hs : s.Inv) (hpf : p.fill = .uninit) (hpw : p.wf)
    (hpb : p.below (s.extent .pix)) (hmw : m.wf) (hmb : m.below (s.extent .msg)) :
    State.Inv { s with pix := p, msg := m } :=
  { hs with pixFill := hpf, pixWf := hpw, pixBelow := hpb, msgWf := hmw, msgBelow := hmb }

theorem inv_powerOnReset (hs : s.Inv) : (powerOnReset s).Inv :=
  inv_forgotten (inv_resetRegisters hs) rfl Memory.wf_blank (Memory.below_blank _)
    Memory.wf_blank (Memory.below_blank _)

theorem inv_warmReset (hs : s.Inv) : (warmReset s).Inv := by
  have hr := inv_resetRegisters hs
  unfold warmReset
  split
  case h_1 => exact hr
  case h_2 =>
    exact inv_forgotten hr hs.pixFill (Memory.wf_forgetBelow hs.pixWf _)
      (Memory.below_forgetBelow hs.pixBelow _) hs.msgWf hs.msgBelow
  case h_3 =>
    exact inv_forgotten hr hs.pixFill hs.pixWf hs.pixBelow Memory.wf_blank (Memory.below_blank _)

theorem HostEffect.inv {e : HostEvent} (h : HostEffect e s t) (hs : s.Inv) : t.Inv := by
  have answered (r : Response) {u : State} (hu : u.Inv) : (respond r u).Inv :=
    (sameBlock_respond r u).inv hu
  cases h with
  | answered d es rs => exact { hs with }
  | command w u _ _ hu => exact answered _ (hu.inv hs)
  | npixWrite v _ hb => exact answered _ (inv_npixWrite v hs (hs.pending_eq_none hb))
  | msglenWrite v _ hb => exact answered _ (inv_msglenWrite v hs (hs.pending_eq_none hb))
  | pixWrite a v _ _ ha => exact answered _ (inv_pixWrite v hs ha)
  | msgWrite a v _ _ ha => exact answered _ (inv_msgWrite v hs ha)
  | powerOnReset _ => exact inv_powerOnReset hs
  | warmReset _ => exact inv_warmReset hs

/-- Settles O51, by the effects of the engine's and the host's steps. -/
theorem stepKeepsTheInvariant : Obligations.StepKeepsTheInvariant := by
  intro s t hs h
  rcases step_cases h with ⟨c, -, hx⟩ | ⟨e, rest, -, -, hx⟩ | ⟨-, rfl⟩
  · exact (exec_next hx).inv hs
  · exact (hostEvent_next hx).inv ((sameBlock_takeEvent rest s).inv hs)
  · exact hs

end Sys2Proof.Machine
end

section
/-! PROOF. What command words and host events leave unchanged, so that each control register changes only
by its own writers (O54, O55, O57, O58), and the host's own writes of NPIX and MSGLEN (O37). -/

namespace Sys2Proof.Machine

variable {s t : State} {i : Instr} {e : HostEvent}

/-! ### What a command word leaves unchanged -/

theorem ExecEffect.operands (h : ExecEffect i s t) :
    t.params = s.params ∧ t.npix = s.npix ∧ t.msglen = s.msglen := by
  cases h <;> exact ⟨rfl, rfl, rfl⟩

theorem ExecEffect.reservedBits_status (h : ExecEffect i s t) :
    reservedBits t.status = reservedBits s.status := by
  cases h <;> simp

theorem ExecEffect.reslen (h : ExecEffect i s t) (hp : s.pending ≠ some .decode) :
    t.reslen = s.reslen := by
  cases h with
  | decoded _ _ _ _ _ hd => exact absurd hd hp
  | _ => rfl

theorem ExecEffect.maxchars (h : ExecEffect i s t) (hp : s.pending ≠ some .encode) :
    t.maxchars = s.maxchars := by
  cases h with
  | encoded _ _ _ _ he => exact absurd he hp
  | _ => rfl

/-- NOP leaves STATUS (R165). -/
theorem ExecEffect.status_of_nop (h : ExecEffect .nop s t) : t.status = s.status := by
  cases h with
  | unchanged => rfl
  | rejected _ hi => exact absurd rfl hi
  | accepted c hi => cases c <;> cases hi
  | encoded _ _ _ hi => cases hi
  | decoded _ _ _ _ hi => cases hi

/-! ### What a host event leaves unchanged -/

theorem warmReset_params (s : State) : (warmReset s).params = s.params := by
  unfold warmReset
  split <;> rfl

theorem warmReset_status (s : State) : (warmReset s).status = 0 := by
  unfold warmReset
  split <;> rfl

theorem HostEffect.params (h : HostEffect e s t) : t.params = s.params := by
  cases h with
  | command w u _ _ hu => exact hu.operands.1
  | warmReset => exact warmReset_params s
  | _ => rfl

theorem HostEffect.reservedBits_status (h : HostEffect e s t) :
    reservedBits t.status = reservedBits s.status ∨
      ((e = .powerOnReset ∨ e = .warmReset) ∧ t.status = 0) := by
  cases h with
  | command w u _ _ hu => exact .inl hu.reservedBits_status
  | powerOnReset he => exact .inr ⟨.inl he, rfl⟩
  | warmReset he => exact .inr ⟨.inr he, warmReset_status s⟩
  | _ => exact .inl rfl

/-- Of a host event that is no reset, only a CMD write of a word other than NOP's reaches STATUS. -/
theorem HostEffect.status (h : HostEffect e s t) (he : e ≠ .powerOnReset ∧ e ≠ .warmReset)
    (hst : t.status ≠ s.status) :
    s.busy = false ∧ ∃ w, e = .transaction (.regWrite 0 w) ∧ w ≠ 0x00000000#32 := by
  cases h with
  | command w u hw hb hu =>
    refine ⟨hb, w, hw, ?_⟩
    rintro rfl
    exact hst hu.status_of_nop
  | powerOnReset h0 => exact absurd h0 he.1
  | warmReset h0 => exact absurd h0 he.2
  | _ => exact absurd rfl hst

/-- A host event that is no reset leaves RESLEN and MAXCHARS, which are the engine's (R30, R31). -/
theorem HostEffect.engineRegisters (h : HostEffect e s t) (hs : s.Inv)
    (he : e ≠ .powerOnReset ∧ e ≠ .warmReset) :
    t.reslen = s.reslen ∧ t.maxchars = s.maxchars := by
  cases h with
  | command w u _ hb hu =>
    have hp := hs.pending_eq_none hb
    exact ⟨hu.reslen (by simp [hp]), hu.maxchars (by simp [hp])⟩
  | powerOnReset h0 => exact absurd h0 he.1
  | warmReset h0 => exact absurd h0 he.2
  | _ => exact ⟨rfl, rfl⟩

/-- NPIX and MSGLEN change by the host's own RegWrite only, which gives them its value (R28, R29). -/
theorem HostEffect.counts (h : HostEffect e s t) (he : e ≠ .powerOnReset ∧ e ≠ .warmReset) :
    (t.npix ≠ s.npix → e = .transaction (.regWrite 2 t.npix)) ∧
      (t.msglen ≠ s.msglen → e = .transaction (.regWrite 3 t.msglen)) := by
  cases h with
  | command w u _ _ hu =>
    obtain ⟨-, hn, hm⟩ := hu.operands
    exact ⟨absurd hn, absurd hm⟩
  | npixWrite v hv => exact ⟨fun _ => hv, absurd rfl⟩
  | msglenWrite v hv => exact ⟨absurd rfl, fun _ => hv⟩
  | powerOnReset h0 => exact absurd h0 he.1
  | warmReset h0 => exact absurd h0 he.2
  | _ => exact ⟨absurd rfl, absurd rfl⟩

/-! ### One step -/

theorem resetsNext_iff {rest : List HostEvent} (hn : s.hostNext e rest) :
    s.resetsNext ↔ e = .powerOnReset ∨ e = .warmReset := by
  simp [State.resetsNext, hn.1, hn.2]

/-- Everything a step that is no reset can be: a completion step of the command in flight, a host event
other than the two resets, or nothing at all. -/
theorem step_effect (h : step s = .next t) (hr : ¬ s.resetsNext) :
    (∃ c, engineTurn s = some c ∧ s.pending = some c ∧ ExecEffect c.instr s t) ∨
      (∃ e rest, s.hostNext e rest ∧ (e ≠ .powerOnReset ∧ e ≠ .warmReset) ∧
        HostEffect e (takeEvent rest s) t) ∨
      t = s := by
  rcases step_cases h with ⟨c, hc, hx⟩ | ⟨e, rest, hn, hh, hx⟩ | ⟨-, rfl⟩
  · exact .inl ⟨c, hc, (engineTurn_eq_some.1 hc).1, exec_next hx⟩
  · have hnext : s.hostNext e rest := ⟨hn, hh⟩
    exact .inr (.inl ⟨e, rest, hnext, not_or.1 (mt (resetsNext_iff hnext).2 hr),
      hostEvent_next hx⟩)
  · exact .inr (.inr rfl)

/-- STATUS changes by the engine, or by a CMD write of a word other than NOP's while idle (R25, R26). -/
theorem status_changed (h : step s = .next t) (hr : ¬ s.resetsNext) (hst : t.status ≠ s.status) :
    (∃ c, engineTurn s = some c) ∨
      (s.busy = false ∧ ∃ w rest, s.hostNext (.transaction (.regWrite 0 w)) rest ∧
        w ≠ 0x00000000#32) := by
  rcases step_effect h hr with ⟨c, hc, -⟩ | ⟨e, rest, hn, he, hx⟩ | rfl
  · exact .inl ⟨c, hc⟩
  · obtain ⟨hb, w, rfl, hw⟩ := hx.status he hst
    exact .inr ⟨hb, w, rest, hn, hw⟩
  · exact absurd rfl hst

/-- Settles O54, from the effects of a command word and of a host event. -/
theorem parametersNeverChange : Obligations.ParametersNeverChange := by
  intro s t h
  rcases step_cases h with ⟨c, -, hx⟩ | ⟨e, rest, -, -, hx⟩ | ⟨-, rfl⟩
  · exact (exec_next hx).operands.1
  · exact (hostEvent_next hx).params
  · rfl

/-- Settles O58: where RESULT changed, STATUS did. -/
theorem resultChangesOnlyWithACommand : Obligations.ResultChangesOnlyWithACommand := by
  intro s t h hr hres
  exact (status_changed h hr (mt (congrArg resultField) hres)).imp_right And.right

/-- Settles O55: each register by its own frame over the engine's step and the host's. -/
theorem controlRegistersChangeOnlyByTheirWriters :
    Obligations.ControlRegistersChangeOnlyByTheirWriters := by
  intro s t hs h hr
  have hparams : t.params = s.params := parametersNeverChange s t h
  have hconst : regValue t .cmd = regValue s .cmd ∧ regValue t .pixcap = regValue s .pixcap ∧
      regValue t .msgcap = regValue s .msgcap :=
    ⟨rfl, congrArg Params.pixCap hparams, congrArg Params.msgCap hparams⟩
  have hstatus := status_changed h hr
  rcases step_effect h hr with ⟨c, hc, hp, hx⟩ | ⟨e, rest, hn, he, hx⟩ | rfl
  · obtain ⟨-, hnpix, hmsglen⟩ := hx.operands
    refine ⟨fun hne => ?_, fun hne => ?_, absurd hnpix, absurd hmsglen, hstatus, hconst⟩
    · have hd : s.pending = some .decode := not_not.1 (mt hx.reslen hne)
      exact hc.trans (hp.symm.trans hd)
    · have he : s.pending = some .encode := not_not.1 (mt hx.maxchars hne)
      exact hc.trans (hp.symm.trans he)
  · obtain ⟨hreslen, hmaxchars⟩ :=
      hx.engineRegisters ((sameBlock_takeEvent rest s).inv hs) he
    obtain ⟨hnpix, hmsglen⟩ := hx.counts he
    exact ⟨absurd hreslen, absurd hmaxchars, fun hne => ⟨rest, hnpix hne ▸ hn⟩,
      fun hne => ⟨rest, hmsglen hne ▸ hn⟩, hstatus, hconst⟩
  · exact ⟨absurd rfl, absurd rfl, absurd rfl, absurd rfl, hstatus, hconst⟩

/-! ### Two register accesses of the host -/

/-- RegRead(STATUS) is answered in every state (R57). -/
theorem hostTransaction_readStatus (s : State) :
    hostTransaction (.regRead Reg.status.index) s = .next (respond (.ok s.status) s) := by
  have hc : portCheck s (.regRead Reg.status.index) = none :=
    portCheck_none.2 ⟨rfl, .inr rfl, rfl⟩
  rw [hostTransaction_performed hc]
  rfl

/-- While idle, a RegWrite to a register the host may write is performed (R51, R59). -/
theorem hostTransaction_writeReg {x : Reg} (v : Word) (hb : s.busy = false)
    (hx : x.readOnly = false) : hostTransaction (.regWrite x.index v) s = writeReg x v s := by
  have hc : portCheck s (.regWrite x.index v) = none :=
    portCheck_none.2 ⟨by cases x <;> rfl, .inl hb, by simp [writesReadOnly, regOfIndex_index, hx]⟩
  rw [hostTransaction_performed hc]
  simp [performTransaction, regOfIndex_index]

/-- Settles O57: no effect writes the reserved bits, and the invariant has them 0. -/
theorem reservedStatusBitsAreNeverWritten : Obligations.ReservedStatusBitsAreNeverWritten := by
  refine ⟨fun s t h => ?_, fun s rest hs hn => ?_⟩
  · rcases step_cases h with ⟨c, -, hx⟩ | ⟨e, rest, hn, hh, hx⟩ | ⟨-, rfl⟩
    · exact .inl (exec_next hx).reservedBits_status
    · exact (hostEvent_next hx).reservedBits_status.imp_right
        (And.imp_left (resetsNext_iff ⟨hn, hh⟩).2)
    · exact .inl rfl
  · refine ⟨s.status, ?_, hs.reserved⟩
    rw [step_host hn.1 hn.2]
    exact hostTransaction_readStatus (takeEvent rest s)

/-- Settles O37: the step performs the write, whose meaning is `writeReg`. -/
theorem countsStoreAnyValue : Obligations.CountsStoreAnyValue := by
  refine fun s v rest hb => ⟨fun hn => ?_, fun hn => ?_⟩ <;> rw [step_host hn.1 hn.2]
  · exact hostTransaction_writeReg (x := .npix) v hb rfl
  · exact hostTransaction_writeReg (x := .msglen) v hb rfl

end Sys2Proof.Machine
end

section
/-! PROOF. What a command does never depends on STATUS, RESLEN or MAXCHARS (O13): overwriting the three
registers commutes with every access to a memory, so with both completion steps. -/

namespace Sys2Proof.Machine

/-- The state with STATUS, RESLEN and MAXCHARS overwritten. -/
def overwrite (st rl mc : Word) (s : State) : State :=
  { s with status := st, reslen := rl, maxchars := mc }

variable (st rl mc : Word) {s : State}

@[simp] theorem mem_overwrite (sp : Space) : (overwrite st rl mc s).mem sp = s.mem sp := by
  cases sp <;> rfl

@[simp] theorem extent_overwrite (sp : Space) :
    (overwrite st rl mc s).extent sp = s.extent sp := by
  cases sp <;> rfl

theorem withMem_overwrite (sp : Space) (m : Memory) :
    (overwrite st rl mc s).withMem sp m = overwrite st rl mc (s.withMem sp m) := by
  cases sp <;> rfl

/-! ### Accesses to a memory -/

theorem memRead_overwrite (sp : Space) (a : Nat) :
    memRead sp a (overwrite st rl mc s) =
      (memRead sp a s).map (Prod.map id (overwrite st rl mc)) := by
  simp only [memRead, extent_overwrite, mem_overwrite]
  split
  · cases (s.mem sp).get a with
    | some v => rfl
    | none =>
      simp only [overwrite]
      cases s.params.uninit <;> rfl
  · rfl

theorem memWrite_overwrite (sp : Space) (a : Nat) (v : Byte) :
    memWrite sp a v (overwrite st rl mc s) = (memWrite sp a v s).map (overwrite st rl mc) := by
  simp only [memWrite, extent_overwrite, mem_overwrite, withMem_overwrite]
  split <;> rfl

theorem readBytes_overwrite (sp : Space) (n a : Nat) :
    readBytes sp n a (overwrite st rl mc s) =
      (readBytes sp n a s).map (Prod.map id (overwrite st rl mc)) := by
  induction n generalizing a s with
  | zero => rfl
  | succ n ih =>
    simp only [readBytes, memRead_overwrite]
    cases memRead sp a s with
    | error f => rfl
    | ok p =>
      simp only [Except.map, Prod.map, ih]
      cases readBytes sp n (a + 1) p.2 <;> rfl

theorem writeBytes_overwrite (sp : Space) (bs : List Byte) (a : Nat) :
    writeBytes sp bs a (overwrite st rl mc s) =
      (writeBytes sp bs a s).map (overwrite st rl mc) := by
  induction bs generalizing a s with
  | nil => rfl
  | cons v vs ih =>
    simp only [writeBytes, memWrite_overwrite]
    cases memWrite sp a v s with
    | error f => rfl
    | ok u => exact ih (a + 1)

theorem packBits_overwrite (f : List Byte) (n i : Nat) :
    packBits f n i (overwrite st rl mc s) = (packBits f n i s).map (overwrite st rl mc) := by
  induction n generalizing i s with
  | zero => rfl
  | succ n ih =>
    simp only [packBits, memRead_overwrite]
    cases memRead .pix i s with
    | error e => rfl
    | ok p =>
      simp only [Except.map, Prod.map, id, memWrite_overwrite]
      cases memWrite .pix i (replaceLsb p.1 (streamBit f i)) p.2 with
      | error e => rfl
      | ok u => exact ih (i + 1)

theorem shiftInBits_overwrite (n a : Nat) (u : Byte) :
    shiftInBits n a u (overwrite st rl mc s) =
      (shiftInBits n a u s).map (Prod.map id (overwrite st rl mc)) := by
  induction n generalizing a u s with
  | zero => rfl
  | succ n ih =>
    simp only [shiftInBits, memRead_overwrite]
    cases memRead .pix a s with
    | error e => rfl
    | ok p => exact ih (a + 1) _

theorem scanUnits_overwrite (n k : Nat) (str : List Byte) :
    scanUnits n k str (overwrite st rl mc s) =
      (scanUnits n k str s).map (Prod.map id (overwrite st rl mc)) := by
  induction n generalizing k str s with
  | zero => rfl
  | succ n ih =>
    simp only [scanUnits, readUnit, shiftInBits_overwrite]
    cases shiftInBits 8 (8 * k) 0 s with
    | error e => rfl
    | ok p =>
      simp only [Except.map, Prod.map, id, ih]
      split <;> rfl

/-! ### Completion steps -/

/-- The register a command's completion gives its diagnostic: MAXCHARS for ENCODE (R108), RESLEN for
DECODE (R130). -/
def diagnostic : Command → State → Word
  | .encode, s => s.maxchars
  | .decode, s => s.reslen

/-- Two outcomes of the command `c`: the same fault, or next states that agree on all but STATUS, RESLEN
and MAXCHARS, and of these on RESULT and on the register the command writes. -/
inductive Alike (c : Command) :
    Host.Outcome State Fault Refusal → Host.Outcome State Fault Refusal → Prop
  | next {t t' : State} (ht : t' = overwrite t'.status t'.reslen t'.maxchars t)
      (hresult : t'.result = t.result) (hdiag : diagnostic c t' = diagnostic c t) :
      Alike c (.next t) (.next t')
  | fault (f : Fault) : Alike c (.fault f) (.fault f)

theorem Alike.exists_next {c : Command} {t : State} {o : Host.Outcome State Fault Refusal}
    (h : Alike c (.next t) o) : ∃ t', o = .next t' ∧
      t' = overwrite t'.status t'.reslen t'.maxchars t ∧ t'.result = t.result ∧
      diagnostic c t' = diagnostic c t := by
  cases h with
  | next ht hresult hdiag => exact ⟨_, rfl, ht, hresult, hdiag⟩

theorem Alike.eq_fault {c : Command} {f : Fault} {o : Host.Outcome State Fault Refusal}
    (h : Alike c (.fault f) o) : o = .fault f := by
  cases h
  rfl

theorem alike_complete {c : Command} (k : ResultCode)
    (hdiag : diagnostic c (overwrite st rl mc s) = diagnostic c s) :
    Alike c (.next (complete k s)) (.next (complete k (overwrite st rl mc s))) := by
  refine .next rfl (by simp) ?_
  cases c <;> exact hdiag

theorem encodeCompletion_overwrite :
    Alike .encode (encodeCompletion s) (encodeCompletion (overwrite st rl mc s)) := by
  have hread : readPayload (overwrite st rl mc s) =
      (readPayload s).map (Prod.map id (overwrite st rl mc)) := readBytes_overwrite ..
  have hrecord (u : State) : recordMaxchars (overwrite st rl mc u) =
      overwrite st rl (recordMaxchars u).maxchars (recordMaxchars u) := rfl
  have hlen : (overwrite st rl mc s).streamLen = s.streamLen := rfl
  have hcap : (overwrite st rl mc s).capacity = s.capacity := rfl
  simp only [encodeCompletion, hread, hlen, hcap]
  cases readPayload s with
  | error e => exact .fault e
  | ok p =>
    simp only [Except.map, Prod.map, id, hrecord, packBits_overwrite]
    split
    · exact alike_complete st rl _ .capacityExceeded rfl
    · cases hpack : packBits (framed p.1) s.streamLen 0 (recordMaxchars p.2) with
      | error e => exact .fault e
      | ok u =>
        have hu : u.maxchars = (recordMaxchars p.2).maxchars := by rw [(packBits_ok hpack).1]
        exact alike_complete st rl _ .ok hu.symm

theorem decodeCompletion_overwrite :
    Alike .decode (decodeCompletion s) (decodeCompletion (overwrite st rl mc s)) := by
  have hunits : (overwrite st rl mc s).units = s.units := rfl
  have hscratch (u : State) : scratchMessage (overwrite st rl mc u) =
      overwrite st rl mc (scratchMessage u) := rfl
  have hrecord (n : Nat) (u : State) : recordReslen n (overwrite st rl mc u) =
      overwrite st (recordReslen n u).reslen mc (recordReslen n u) := rfl
  simp only [decodeCompletion, hunits, scanUnits_overwrite]
  cases scanUnits s.units 0 [] s with
  | error e => exact .fault e
  | ok p =>
    obtain ⟨_ | r, u⟩ := p <;>
      simp only [Except.map, Prod.map, id, hscratch, hrecord, writeBytes_overwrite]
    · exact alike_complete st _ mc .notFound rfl
    · cases writeBytes .msg r 0 (scratchMessage u) with
      | error e => exact .fault e
      | ok v => exact alike_complete st _ mc .ok rfl

/-- Overwriting the three registers changes nothing of what the command in flight does. -/
theorem exec_overwrite {c : Command} (hp : s.pending = some c) :
    Alike c (exec c.instr s) (exec c.instr (overwrite st rl mc s)) := by
  have hp' : (overwrite st rl mc s).pending = some c := hp
  cases c with
  | encode =>
    simp only [Command.instr, exec_encode_inFlight hp, exec_encode_inFlight hp']
    exact encodeCompletion_overwrite st rl mc
  | decode =>
    simp only [Command.instr, exec_decode_inFlight hp, exec_decode_inFlight hp']
    exact decodeCompletion_overwrite st rl mc

/-- Settles O13: the two completion steps are alike. -/
theorem commandsAreStateless : Obligations.CommandsAreStateless := by
  intro c s st rl mc hp s'
  have halike : Alike c (exec c.instr s) (exec c.instr s') := exec_overwrite st rl mc hp
  refine ⟨fun t ht => ?_, fun f hf => (hf ▸ halike).eq_fault⟩
  obtain ⟨t', ht', heq, hresult, hdiag⟩ := (ht ▸ halike).exists_next
  have hpix : t'.pix = t.pix := (congrArg State.pix heq :)
  have hmsg : t'.msg = t.msg := (congrArg State.msg heq :)
  refine ⟨t', ht', hresult, hpix, fun a => by rw [hmsg], ?_, ?_⟩
  · rintro rfl
    exact ⟨hdiag, hmsg⟩
  · rintro rfl
    exact ⟨hdiag, fun i _ => by rw [hmsg]⟩

end Sys2Proof.Machine
end

section
/-! PROOF. The host port, transaction by transaction (R51 to R59): what it answers, and that an answer
of ERR changes nothing (O32 to O36, O38, O39). -/

namespace Sys2Proof.Machine

variable {s t : State} {x : Transaction} {rest : List HostEvent}

/-! ### The checks before a transaction (R56 to R59) -/

theorem step_transaction (hn : s.hostNext (.transaction x) rest) :
    step s = hostTransaction x (takeEvent rest s) :=
  step_host hn.1 hn.2

@[simp] theorem inRange_takeEvent (rest : List HostEvent) (s : State) (x : Transaction) :
    inRange (takeEvent rest s) x = inRange s x := by
  cases x <;> rfl

@[simp] theorem busy_takeEvent (rest : List HostEvent) (s : State) :
    (takeEvent rest s).busy = s.busy := rfl

theorem portCheck_busy (hr : inRange s x = true) (hb : s.busy = true)
    (hx : x ≠ .regRead Reg.status.index) : portCheck s x = some .busy := by
  simp [portCheck, hr, hb, hx]

theorem portCheck_readOnly (hr : inRange s x = true) (hb : s.busy = false)
    (hw : writesReadOnly x = true) : portCheck s x = some .readOnly := by
  simp [portCheck, hr, hb, hw]

/-- While idle, a transaction on an existing address that writes no read-only register is performed. -/
theorem hostTransaction_idle (hb : s.busy = false) (hr : inRange s x = true)
    (hw : writesReadOnly x = false) : hostTransaction x s = performTransaction x s :=
  hostTransaction_performed (portCheck_none.2 ⟨hr, .inl hb, hw⟩)

theorem step_idle (hn : s.hostNext (.transaction x) rest) (hb : s.busy = false)
    (hr : inRange s x = true) (hw : writesReadOnly x = false) :
    step s = performTransaction x (takeEvent rest s) := by
  rw [step_transaction hn]
  exact hostTransaction_idle hb (by simpa using hr) hw

/-- Settles O32: the range check comes first. -/
theorem rangeIsCheckedFirst : Obligations.RangeIsCheckedFirst := by
  intro s x rest hn hx
  have hr : inRange s x = false := by
    rcases hx with ⟨r, v, h, rfl | rfl⟩ | ⟨a, v, h, rfl | rfl⟩ | ⟨a, v, h, rfl | rfl⟩ <;>
      exact decide_eq_false (Nat.not_lt.2 h)
  rw [step_transaction hn]
  exact hostTransaction_error (portCheck_range (by simpa using hr))

/-- Settles O33: the lockout comes second, and RegRead(STATUS) passes it. -/
theorem busyLocksTheHostOut : Obligations.BusyLocksTheHostOut := by
  refine fun s x rest hn hb hr => ⟨fun hx => ?_, ?_⟩
  · rw [step_transaction hn]
    exact hostTransaction_error (portCheck_busy (by simpa using hr) hb hx)
  · rintro rfl
    rw [step_transaction hn]
    exact hostTransaction_readStatus (takeEvent rest s)

/-! ### Registers (R51, R58) -/

theorem Reg.index_injective : Function.Injective Reg.index := fun x y h =>
  Option.some_injective _ (by rw [← regOfIndex_index x, h, regOfIndex_index])

theorem index_toNat_lt (x : Reg) : x.index.toNat < 8 := by
  cases x <;> decide

theorem hostTransaction_readReg (x : Reg) (hb : s.busy = false) :
    hostTransaction (.regRead x.index) s = .next (respond (.ok (regValue s x)) s) := by
  rw [hostTransaction_idle hb (by simp [inRange, index_toNat_lt]) rfl]
  simp [performTransaction, regOfIndex_index]

theorem hostTransaction_writeReadOnly {x : Reg} (v : Word) (hb : s.busy = false)
    (hx : x.readOnly = true) :
    hostTransaction (.regWrite x.index v) s = .next (respond (.err .readOnly) s) :=
  hostTransaction_error (portCheck_readOnly (by simp [inRange, index_toNat_lt]) hb
    (by simp [writesReadOnly, regOfIndex_index, hx]))

/-- Settles O34: each of the five indices is a read-only register's. -/
theorem readOnlyRegistersRejectWrites : Obligations.ReadOnlyRegistersRejectWrites := by
  refine fun s x rest hn hb => ⟨fun r v hr hx => ?_, ?_⟩
  · obtain ⟨y, rfl, hy⟩ : ∃ y : Reg, r = y.index ∧ y.readOnly = true := by
      rcases hr with rfl | rfl | rfl | rfl | rfl
      · exact ⟨.status, rfl, rfl⟩
      · exact ⟨.reslen, rfl, rfl⟩
      · exact ⟨.maxchars, rfl, rfl⟩
      · exact ⟨.pixcap, rfl, rfl⟩
      · exact ⟨.msgcap, rfl, rfl⟩
    subst hx
    rw [step_transaction hn]
    exact hostTransaction_writeReadOnly v hb hy
  · rintro rfl
    rw [step_transaction hn]
    exact hostTransaction_readReg .cmd hb

/-- Settles O36: an index below 8 is that of one register, and the answer is its value. -/
theorem registerReads : Obligations.RegisterReads := by
  intro s r rest hn hb hr
  obtain ⟨x, hx⟩ : ∃ x, regOfIndex r = some x :=
    Option.ne_none_iff_exists'.1 fun h => absurd (regOfIndex_eq_none.1 h) (by omega)
  obtain rfl := index_of_regOfIndex hx
  have value (y : Reg) (h : x.index = y.index) : regValue s x = regValue s y := by
    rw [Reg.index_injective h]
  refine ⟨regValue s x, ?_, value .cmd, value .status, value .npix, value .msglen, value .reslen,
    value .maxchars, value .pixcap, value .msgcap⟩
  rw [step_transaction hn]
  exact hostTransaction_readReg x hb

/-! ### Bytes (R52, R53) -/

theorem hostReadByte_of_get {sp : Space} {a : Nat} {v : Byte} (ha : a < s.extent sp)
    (h : (s.mem sp).get a = some v) :
    hostReadByte sp a s = .next (respond (.ok (v.setWidth 32)) s) := by
  simp [hostReadByte, memRead_of_get ha h]

theorem hostWriteByte_of_lt {sp : Space} {a : Nat} (v : Byte) (ha : a < s.extent sp) :
    hostWriteByte sp a v s = .next (respond (.ok 0) (s.withMem sp ((s.mem sp).set a v))) := by
  simp [hostWriteByte, memWrite_of_lt ha]

/-- Settles O38: an idle block performs both accesses. -/
theorem hostAccessToPixmem : Obligations.HostAccessToPixmem := by
  refine fun s a rest hb ha => ⟨fun v hn hv => ?_, fun v hn => ?_⟩
  · rw [step_idle hn hb (decide_eq_true ha) rfl]
    exact hostReadByte_of_get ha hv
  · refine ⟨{ takeEvent rest s with pix := s.pix.set a.toNat v }, ?_, rfl,
      fun b => Memory.get_set s.pix a.toNat b v⟩
    rw [step_idle hn hb (decide_eq_true ha) rfl]
    exact hostWriteByte_of_lt v ha

/-- Settles O39: an idle block performs both accesses. -/
theorem hostAccessToMsgbuf : Obligations.HostAccessToMsgbuf := by
  refine fun s a rest hb ha => ⟨fun v hn hv => ?_, fun v hn => ?_⟩
  · rw [step_idle hn hb (decide_eq_true ha) rfl]
    exact hostReadByte_of_get ha hv
  · refine ⟨{ takeEvent rest s with msg := s.msg.set a.toNat v }, ?_, rfl,
      fun b => Memory.get_set s.msg a.toNat b v⟩
    rw [step_idle hn hb (decide_eq_true ha) rfl]
    exact hostWriteByte_of_lt v ha

/-! ### One response, and none of ERR with a change of state (R54) -/

theorem ExecEffect.responses {i : Instr} (h : ExecEffect i s t) : t.responses = s.responses := by
  cases h <;> rfl

/-- `t` is `s` after one response: OK with any value, or ERR and nothing else. -/
def Answers (s t : State) : Prop :=
  (∃ v, t.responses = s.responses ++ [⟨.ok v, false⟩]) ∨ ∃ k, t = respond (.err k) s

theorem answers_writeReg {x : Reg} {v : Word} (h : writeReg x v s = .next t) : Answers s t := by
  cases x with
  | cmd =>
    simp only [writeReg] at h
    cases he : exec (decodeWord v) s with
    | next u =>
      obtain rfl : respond (.ok 0) u = t := by simpa [he, thenRespond] using h
      exact .inl ⟨0, by simp [(exec_next he).responses]⟩
    | fault f => simp [he, thenRespond] at h
    | refused q => simp [he, thenRespond] at h
  | npix | msglen =>
    simp only [writeReg, Host.Outcome.next.injEq] at h
    exact .inl ⟨0, by simp [← h]⟩
  | status | reslen | maxchars | pixcap | msgcap =>
    simp only [writeReg, Host.Outcome.next.injEq] at h
    exact .inr ⟨.readOnly, h.symm⟩

theorem answers_hostReadByte {sp : Space} {a : Nat} (h : hostReadByte sp a s = .next t) :
    Answers s t := by
  obtain ⟨v, n, rfl⟩ := hostReadByte_next h
  exact .inl ⟨v, rfl⟩

theorem answers_hostWriteByte {sp : Space} {a : Nat} {v : Byte}
    (h : hostWriteByte sp a v s = .next t) : Answers s t := by
  obtain ⟨-, rfl⟩ := hostWriteByte_next h
  exact .inl ⟨0, by simp⟩

theorem answers_performTransaction (h : performTransaction x s = .next t) : Answers s t := by
  cases x with
  | regRead r =>
    simp only [performTransaction] at h
    split at h <;> simp only [Host.Outcome.next.injEq] at h
    · rename_i y hy
      exact .inl ⟨regValue s y, by simp [← h]⟩
    · exact .inr ⟨.range, h.symm⟩
  | regWrite r v =>
    simp only [performTransaction] at h
    split at h
    · exact answers_writeReg h
    · simp only [Host.Outcome.next.injEq] at h
      exact .inr ⟨.range, h.symm⟩
  | pixRead a | msgRead a => exact answers_hostReadByte h
  | pixWrite a v | msgWrite a v => exact answers_hostWriteByte h

theorem answers_hostTransaction (h : hostTransaction x s = .next t) : Answers s t := by
  cases hc : portCheck s x with
  | some k =>
    rw [hostTransaction_error hc, Host.Outcome.next.injEq] at h
    exact .inr ⟨k, h.symm⟩
  | none =>
    rw [hostTransaction_performed hc] at h
    exact answers_performTransaction h

/-- Settles O35: every way through the port answers once. -/
theorem errorsChangeNoState : Obligations.ErrorsChangeNoState := by
  intro s t x rest hn h
  rw [step_transaction hn] at h
  rcases answers_hostTransaction h with ⟨v, hv⟩ | ⟨k, rfl⟩
  · exact ⟨.ok v, hv, .inl ⟨v, rfl⟩⟩
  · exact ⟨.err k, rfl, .inr ⟨k, rfl, rfl⟩⟩

end Sys2Proof.Machine
end

section
/-! PROOF. What the host's turns leave unchanged (O41, O42), and who writes a byte of the two memories
(O56). -/

namespace Sys2Proof.Machine

variable {s t : State} {e : HostEvent} {rest : List HostEvent}

/-! ### The block -/

/-- A host event that is no reset leaves the block as it is, unless it is a write to an idle block. -/
theorem HostEffect.sameBlock_or_write (h : HostEffect e s t)
    (he : e ≠ .powerOnReset ∧ e ≠ .warmReset) :
    s.sameBlock t ∨ (s.busy = false ∧ ((∃ r v, e = .transaction (.regWrite r v)) ∨
      ∃ a v, e = .transaction (.pixWrite a v) ∨ e = .transaction (.msgWrite a v))) := by
  cases h with
  | answered => exact .inl ⟨rfl, rfl, rfl, rfl, rfl, rfl, rfl, rfl, rfl⟩
  | command w _ hw hb => exact .inr ⟨hb, .inl ⟨_, w, hw⟩⟩
  | npixWrite v hv hb | msglenWrite v hv hb => exact .inr ⟨hb, .inl ⟨_, v, hv⟩⟩
  | pixWrite a v hv hb => exact .inr ⟨hb, .inr ⟨a, v, .inl hv⟩⟩
  | msgWrite a v hv hb => exact .inr ⟨hb, .inr ⟨a, v, .inr hv⟩⟩
  | powerOnReset h0 => exact absurd h0 he.1
  | warmReset h0 => exact absurd h0 he.2

/-- Settles O41: a read is neither a reset nor a write. -/
theorem readsHaveNoSideEffect : Obligations.ReadsHaveNoSideEffect := by
  intro s t x rest hn hx h
  rw [step_transaction hn] at h
  rcases (hostTransaction_next h).sameBlock_or_write ⟨nofun, nofun⟩ with hsame | ⟨-, hw⟩
  · exact hsame
  · obtain ⟨a, rfl | rfl | rfl⟩ := hx <;> simp at hw

/-- Settles O42: no write reaches a busy block. -/
theorem hostTurnsWhileBusyChangeNothing : Obligations.HostTurnsWhileBusyChangeNothing := by
  intro s t hb hturn hr h
  rcases step_effect h hr with ⟨c, hc, -⟩ | ⟨e, rest, -, he, hx⟩ | rfl
  · simp [hturn] at hc
  · exact (hx.sameBlock_or_write he).resolve_right (by simp [hb])
  · exact ⟨rfl, rfl, rfl, rfl, rfl, rfl, rfl, rfl, rfl⟩

/-! ### The bytes of the memories (R66) -/

theorem ExecEffect.pix {i : Instr} (h : ExecEffect i s t) (hp : s.pending ≠ some .encode) :
    t.pix = s.pix := by
  cases h with
  | encoded _ _ _ _ he => exact absurd he hp
  | _ => rfl

theorem ExecEffect.msg {i : Instr} (h : ExecEffect i s t) (hp : s.pending ≠ some .decode) :
    t.msg = s.msg := by
  cases h with
  | decoded _ _ _ _ _ hd => exact absurd hd hp
  | _ => rfl

/-- A write changes the byte at its own address only, which then holds its value. -/
theorem Memory.eq_of_get_set_ne {m : Memory} {a b : Nat} {v : Byte}
    (h : (m.set b v).get a ≠ m.get a) : b = a ∧ (m.set b v).get a = some v := by
  by_cases hab : a = b
  · subst hab
    exact ⟨rfl, m.get_set_same a v⟩
  · exact absurd (m.get_set_ne v hab) h

/-- A host event that is no reset changes a byte by the write to that byte only, which gives it its
value. -/
theorem HostEffect.bytes (h : HostEffect e s t) (hs : s.Inv)
    (he : e ≠ .powerOnReset ∧ e ≠ .warmReset) (a : Nat) :
    (t.pix.get a ≠ s.pix.get a → ∃ x v, e = .transaction (.pixWrite x v) ∧ x.toNat = a ∧
      t.pix.get a = some v) ∧
    (t.msg.get a ≠ s.msg.get a → ∃ x v, e = .transaction (.msgWrite x v) ∧ x.toNat = a ∧
      t.msg.get a = some v) := by
  cases h with
  | command w u _ hb hu =>
    have hp := hs.pending_eq_none hb
    have hpix : u.pix = s.pix := hu.pix (by simp [hp])
    have hmsg : u.msg = s.msg := hu.msg (by simp [hp])
    exact ⟨absurd (congrArg (Memory.get · a) hpix), absurd (congrArg (Memory.get · a) hmsg)⟩
  | pixWrite x v hv =>
    exact ⟨fun hne => ⟨x, v, hv, Memory.eq_of_get_set_ne hne⟩, absurd rfl⟩
  | msgWrite x v hv =>
    exact ⟨absurd rfl, fun hne => ⟨x, v, hv, Memory.eq_of_get_set_ne hne⟩⟩
  | powerOnReset h0 => exact absurd h0 he.1
  | warmReset h0 => exact absurd h0 he.2
  | _ => exact ⟨absurd rfl, absurd rfl⟩

/-- Settles O56, from what the engine's and the host's steps leave of the two memories. -/
theorem bytesPersist : Obligations.BytesPersist := by
  intro s t a hs h hr
  rcases step_effect h hr with ⟨c, hc, hp, hx⟩ | ⟨e, rest, hn, he, hx⟩ | rfl
  · refine ⟨fun hne => .inl ?_, fun hne => .inl ?_⟩
    · have he : s.pending = some .encode :=
        not_not.1 fun hp' => hne (congrArg (Memory.get · a) (hx.pix hp'))
      exact hc.trans (hp.symm.trans he)
    · have hd : s.pending = some .decode :=
        not_not.1 fun hp' => hne (congrArg (Memory.get · a) (hx.msg hp'))
      exact hc.trans (hp.symm.trans hd)
  · obtain ⟨hpix, hmsg⟩ := hx.bytes ((sameBlock_takeEvent rest s).inv hs) he a
    refine ⟨fun hne => .inr ?_, fun hne => .inr ?_⟩
    · obtain ⟨x, v, rfl, hv⟩ := hpix hne
      exact ⟨x, v, rest, hn, hv⟩
    · obtain ⟨x, v, rfl, hv⟩ := hmsg hne
      exact ⟨x, v, rest, hn, hv⟩
  · exact ⟨absurd rfl, absurd rfl⟩

end Sys2Proof.Machine
end

section
/-! PROOF. The one fault of a step from a state of the invariant: a read of an uninitialised byte within
its space, under UNINIT_POLICY = fault (R77, R203), so none at an address that does not exist (O52). -/

namespace Sys2Proof.Machine

variable {s : State} {f : Fault}

/-- `f` is R203's fault, at a byte of `s` that exists and was never written. -/
def State.UninitFault (s : State) (f : Fault) : Prop :=
  ∃ sp a, f = .uninitialisedRead sp a ∧ a < s.extent sp ∧ (s.mem sp).get a = none ∧
    s.params.uninit = .fault

/-- An access that faults within its space is a read of an uninitialised byte. -/
theorem uninitFault_of_lt {sp : Space} {a : Nat} (ha : a < s.extent sp)
    (h : (f = .uninitialisedRead sp a ∧ (s.mem sp).get a = none ∧ s.params.uninit = .fault) ∨
      (f = .addressOutOfRange sp a ∧ s.extent sp ≤ a)) : s.UninitFault f := by
  rcases h with ⟨hf, hn, hp⟩ | ⟨-, hx⟩
  · exact ⟨sp, a, hf, ha, hn, hp⟩
  · exact absurd hx (Nat.not_le.2 ha)

/-! ### The engine (R77) -/

theorem msglen_le_of_configOk (h : configOk .encode s = true) :
    s.msglen.toNat ≤ s.params.msgCap.toNat := by
  simp only [configOk, Bool.and_eq_true, decide_eq_true_eq] at h
  exact h.2

/-- A carrier in flight lies within PIXMEM. -/
theorem State.Inv.capacity_le (hs : s.Inv) {c : Command} (hp : s.pending = some c) :
    s.capacity ≤ s.extent .pix :=
  Nat.mul_le_mul_left 3 (npix_le_of_configOk (hs.accepted c hp))

theorem encodeCompletion_fault (hs : s.Inv) (hp : s.pending = some .encode)
    (h : encodeCompletion s = .fault f) : s.UninitFault f := by
  have hmsg : s.payloadLen ≤ s.extent .msg := msglen_le_of_configOk (hs.accepted _ hp)
  have hpix := hs.capacity_le hp
  unfold encodeCompletion at h
  split at h
  · rename_i e hread
    obtain rfl : e = f := by simpa using h
    obtain ⟨b, -, hb, hx⟩ := readBytes_error hread
    exact uninitFault_of_lt (by omega) hx
  · rename_i m s1 hread
    have hs1 : s1 = { s with draws := s1.draws } := (readBytes_ok hread).1
    split at h
    · simp at h
    · split at h
      · rename_i hfits e hpack
        obtain rfl : e = f := by simpa using h
        obtain ⟨b, -, hb, hx⟩ := packBits_error hpack
        rw [hs1] at hx
        exact uninitFault_of_lt (sp := .pix) (by omega) hx
      · simp at h

theorem decodeCompletion_fault (hs : s.Inv) (hp : s.pending = some .decode)
    (h : decodeCompletion s = .fault f) : s.UninitFault f := by
  have hpix : 8 * s.units ≤ s.extent .pix :=
    (Nat.mul_div_le s.capacity 8).trans (hs.capacity_le hp)
  have hmsg : s.units ≤ s.extent .msg := (hs.units_le hp).trans hs.pixUnits_le
  unfold decodeCompletion at h
  split at h
  · rename_i e hscan
    obtain rfl : e = f := by simpa using h
    obtain ⟨b, -, hb, hx⟩ := scanUnits_error hscan
    exact uninitFault_of_lt (sp := .pix) (by omega) hx
  · simp at h
  · rename_i r s1 hscan
    obtain ⟨hs1, hlen⟩ := scanUnits_ok hscan
    have hr : r.length ≤ s.units := by simpa using (hlen r rfl).trans (Nat.sub_le _ 9)
    split at h
    · rename_i hwrite
      obtain ⟨b, -, hb, -, hx⟩ := writeBytes_error hwrite
      have hx' : s.extent .msg ≤ b := by rw [hs1] at hx; exact hx
      omega
    · simp at h

theorem exec_inFlight_fault (hs : s.Inv) {c : Command} (hp : s.pending = some c)
    (h : exec c.instr s = .fault f) : s.UninitFault f := by
  cases c with
  | encode => exact encodeCompletion_fault hs hp ((exec_encode_inFlight hp).symm.trans h)
  | decode => exact decodeCompletion_fault hs hp ((exec_decode_inFlight hp).symm.trans h)

/-! ### The host -/

/-- An issue always has a next state (R160, R163, R165, R166). -/
theorem exec_idle_exists (i : Instr) (hp : s.pending = none) : ∃ t, exec i s = .next t := by
  cases i with
  | nop => exact ⟨s, rfl⟩
  | encode => exact ⟨_, exec_encode_idle hp⟩
  | decode => exact ⟨_, exec_decode_idle hp⟩
  | illegal opc mbz => exact ⟨recordResult .illegalCommand s, by simp [exec, execIllegal, hp]⟩

theorem hostReadByte_fault {sp : Space} {a : Nat} (ha : a < s.extent sp)
    (h : hostReadByte sp a s = .fault f) : s.UninitFault f := by
  unfold hostReadByte at h
  split at h
  · rename_i e hread
    obtain rfl : e = f := by simpa using h
    exact uninitFault_of_lt ha ((memRead_error hread).imp_left fun ⟨hf, _, hn, hp⟩ => ⟨hf, hn, hp⟩)
  · simp at h

theorem writeReg_exists (x : Reg) (v : Word) (hp : s.pending = none) :
    ∃ t, writeReg x v s = .next t := by
  cases x with
  | cmd =>
    obtain ⟨t, ht⟩ := exec_idle_exists (decodeWord v) hp
    exact ⟨respond (.ok 0) t, by simp [writeReg, ht, thenRespond]⟩
  | _ => exact ⟨_, rfl⟩

/-- A transaction that passed the three checks faults only where it reads an uninitialised byte. -/
theorem performTransaction_fault {x : Transaction} (hs : s.Inv) (hc : portCheck s x = none)
    (h : performTransaction x s = .fault f) : s.UninitFault f := by
  have hr : inRange s x = true := (portCheck_none.1 hc).1
  cases x with
  | regRead r =>
    simp only [performTransaction] at h
    split at h <;> simp at h
  | regWrite r v =>
    have hp := hs.pending_eq_none (busy_eq_false_of_portCheck hc nofun)
    simp only [performTransaction] at h
    split at h
    · rename_i y hy
      obtain ⟨t, ht⟩ := writeReg_exists y v hp
      simp [ht] at h
    · simp at h
  | pixRead a | msgRead a =>
    simp only [inRange, decide_eq_true_eq] at hr
    exact hostReadByte_fault hr h
  | pixWrite a v | msgWrite a v =>
    simp only [inRange, decide_eq_true_eq] at hr
    exact absurd ((hostWriteByte_of_lt v hr).symm.trans h) nofun

theorem hostEvent_fault {e : HostEvent} (hs : s.Inv) (h : hostEvent e s = .fault f) :
    s.UninitFault f := by
  cases e with
  | transaction x =>
    change hostTransaction x s = .fault f at h
    cases hc : portCheck s x with
    | some k => simp [hostTransaction_error hc] at h
    | none => exact performTransaction_fault hs hc ((hostTransaction_performed hc).symm.trans h)
  | getmsg =>
    simp only [hostEvent] at h
    split at h <;> simp at h
  | wait | powerOnReset | warmReset => simp [hostEvent] at h

/-! ### One step -/

/-- From a state of the invariant a step faults only by R203. -/
theorem step_fault (hs : s.Inv) (h : step s = .fault f) : s.UninitFault f := by
  cases hturn : engineTurn s with
  | some c =>
    exact exec_inFlight_fault hs (engineTurn_eq_some.1 hturn).1 ((step_engine hturn).symm.trans h)
  | none =>
    cases hhost : s.host with
    | nil => simp [step, hturn, hostTurn, hhost] at h
    | cons e rest =>
      rw [step_host hturn hhost] at h
      obtain ⟨sp, a, hf, ha, hn, hp⟩ :=
        hostEvent_fault ((sameBlock_takeEvent rest s).inv hs) h
      exact ⟨sp, a, hf, by cases sp <;> exact ha, by cases sp <;> exact hn, hp⟩

/-- Settles O52: the one fault there is names an existing byte. -/
theorem engineAddressesAreInRange : Obligations.EngineAddressesAreInRange := by
  intro s sp a hs h
  obtain ⟨_, _, hf, -⟩ := step_fault hs h
  cases hf

end Sys2Proof.Machine
end

section
/-! PROOF. Command words (R80 to R82, R89): the decoder and the encoder are inverse to each other
(O1 to O4). -/

namespace Sys2Proof

/-- A word is its two fields (R80). -/
theorem word_eq_iff {v w : Word} : v = w ↔ opcField v = opcField w ∧ mbzField v = mbzField w := by
  refine ⟨fun h => h ▸ ⟨rfl, rfl⟩, fun ⟨hopc, hmbz⟩ => ?_⟩
  rw [← mbzField_append_opcField v, hopc, hmbz, mbzField_append_opcField]

/-- The fields of a word spell an illegal command exactly if the word is none of the three legal ones
(R81, R89). -/
theorem wf_illegal_iff (w : Word) :
    (Instr.illegal (opcField w) (mbzField w)).wf = true ↔ w ≠ 0#32 ∧ w ≠ 1#32 ∧ w ≠ 2#32 := by
  have mbzZero : mbzField 0#32 = 0 ∧ mbzField 1#32 = 0 ∧ mbzField 2#32 = 0 := by decide
  have opcs : opcField 0#32 = 0 ∧ opcField 1#32 = 1 ∧ opcField 2#32 = 2 := by decide
  simp only [ne_eq, word_eq_iff, mbzZero, opcs, Instr.wf, Bool.not_eq_true', Bool.and_eq_false_iff,
    Bool.or_eq_false_iff, beq_eq_false_iff_ne]
  tauto

theorem decodeWord_of_wf_illegal {w : Word}
    (h : (Instr.illegal (opcField w) (mbzField w)).wf = true) :
    decodeWord w = .illegal (opcField w) (mbzField w) := by
  obtain ⟨h0, h1, h2⟩ := (wf_illegal_iff w).1 h
  rw [decodeWord_eq, if_neg h0, if_neg h1, if_neg h2]

/-- Settles O3: the word of an illegal command has the command's own fields. -/
theorem decodeOfEncode : Obligations.DecodeOfEncode := by
  intro i hi
  cases i with
  | nop | encode | decode => decide
  | illegal opc mbz =>
    have h := decodeWord_of_wf_illegal (w := mbz ++ opc) (by simpa using hi)
    simpa [encodeInstr] using h

/-- Settles O4: the fields of an illegal word give it back. -/
theorem encodeOfDecode : Obligations.EncodeOfDecode := by
  intro w
  by_cases h : (Instr.illegal (opcField w) (mbzField w)).wf = true
  · rw [decodeWord_of_wf_illegal h]
    exact ⟨h, mbzField_append_opcField w⟩
  · rw [wf_illegal_iff] at h
    obtain rfl | rfl | rfl : w = 0#32 ∨ w = 1#32 ∨ w = 2#32 := by tauto
    all_goals decide

/-- A word decodes to a well-formed command exactly if it is the command's word. -/
theorem decodeWord_eq_iff {i : Instr} (hi : i.wf = true) (w : Word) :
    decodeWord w = i ↔ w = encodeInstr i :=
  ⟨fun h => h ▸ (encodeOfDecode w).2.symm, fun h => h ▸ decodeOfEncode i hi⟩

/-- Settles O2: a legal command is well-formed, so it is what its own word and no other decodes to. -/
theorem decodingIsAnExactMatch : Obligations.DecodingIsAnExactMatch := by
  refine ⟨fun w => ⟨decodeWord_eq_iff rfl w, decodeWord_eq_iff rfl w, decodeWord_eq_iff rfl w,
    fun h0 h1 h2 => ?_⟩, by decide⟩
  exact decodeWord_of_wf_illegal ((wf_illegal_iff w).2 ⟨h0, h1, h2⟩)

/-- Settles O1: each word is that of the well-formed command beside it. -/
theorem tabledWordsDecode : Obligations.TabledWordsDecode := by
  refine ⟨?_, ?_, ?_, ?_, ?_, ?_, ?_⟩ <;> exact (decodeWord_eq_iff rfl _).2 (by decide)

end Sys2Proof
end

section
/-! PROOF. The host notation (R91 to R95): what `wait` and `getmsg` do in one step, and what `setpix`,
`fillpix` and `setmsg` stand for (O43 to O46). -/

namespace Sys2Proof.Machine

variable {s : State} {rest : List HostEvent}

/-! ### `wait` and `getmsg` (R92, R95) -/

/-- The response of a repeated poll is no part of a run's observation (R168). -/
theorem sameObservation_repeatedPoll (r : Response) (es : List HostEvent) (d : Nat) :
    s.sameObservation
      { s with host := es, delay := d, responses := s.responses ++ [⟨r, true⟩] } := by
  refine ⟨fun x => by cases x <;> rfl, fun _ _ => rfl, fun _ _ => rfl, ?_⟩
  simp [State.observedResponses]

theorem hostEvent_wait_busy (hb : s.busy = true) :
    hostEvent .wait s =
      .next (continueWith [.wait] (respondRepeated (.ok s.status) s)) :=
  congrArg Host.Outcome.next (if_pos hb)

theorem hostEvent_wait_idle (hb : s.busy = false) :
    hostEvent .wait s = .next (respond (.ok s.status) s) :=
  congrArg Host.Outcome.next (if_neg (Bool.eq_false_iff.1 hb))

/-- Settles O43: bit 0 of STATUS is BUSY, which decides whether the poll is repeated. -/
theorem waitPollsStatus : Obligations.WaitPollsStatus := by
  intro s rest hn
  rw [step_host hn.1 hn.2]
  exact ⟨fun hb => ⟨_, hostEvent_wait_busy hb, rfl, sameObservation_repeatedPoll (.ok s.status) _ _⟩,
    hostEvent_wait_idle (s := takeEvent rest s)⟩

/-- RegRead(RESLEN) is refused by the lockout only (R57, R59). -/
theorem portCheck_readReslen (s : State) :
    portCheck s (.regRead Reg.reslen.index) = if s.busy then some .busy else none := by
  cases hb : s.busy with
  | false => exact portCheck_none.2 ⟨rfl, .inl hb, rfl⟩
  | true => exact portCheck_busy rfl hb (by decide)

/-- Settles O44: the lockout decides whether RESLEN is read. -/
theorem getmsgReadsTheMessage : Obligations.GetmsgReadsTheMessage := by
  intro s rest hn
  rw [step_host hn.1 hn.2, hostEvent, portCheck_readReslen, busy_takeEvent]
  refine ⟨fun hb => ?_, fun hb => ?_⟩ <;> rw [hb] <;> rfl

/-! ### `setpix` and `fillpix` (R93) -/

/-- The PixWrites of `fillpix` before its last line. -/
theorem length_flatMap_setpix (n : Nat) (r g b : Byte) :
    ((List.range n).flatMap fun i => setpix i r g b).length = 3 * n := by
  simp [List.length_flatMap, setpix, Nat.mul_comm]

theorem getElem?_flatMap_setpix {n i c : Nat} (r g b : Byte) (hi : i < n) (hc : c < 3) :
    ((List.range n).flatMap fun i => setpix i r g b)[3 * i + c]? = (setpix i r g b)[c]? := by
  induction n with
  | zero => omega
  | succ n ih =>
    have hlen := length_flatMap_setpix n r g b
    rw [List.range_succ, List.flatMap_append, List.flatMap_singleton]
    rcases Nat.lt_succ_iff_lt_or_eq.1 hi with hlt | rfl
    · rw [List.getElem?_append_left (by omega), ih hlt]
    · rw [List.getElem?_append_right (by omega), hlen, Nat.add_sub_cancel_left]

theorem getElem?_fillpix {n i c : Nat} (r g b : Byte) (hi : i < n) (hc : c < 3) :
    (fillpix n r g b)[3 * i + c]? = (setpix i r g b)[c]? := by
  rw [fillpix, List.getElem?_append_left (by rw [length_flatMap_setpix]; omega),
    getElem?_flatMap_setpix r g b hi hc]

theorem getElem?_fillpix_last (n : Nat) (r g b : Byte) :
    (fillpix n r g b)[3 * n]? = some (wreg .npix (BitVec.ofNat 32 n)) := by
  simp [fillpix, ← length_flatMap_setpix n r g b]

theorem toNat_ofNat_of_lt {w n : Nat} (h : n < 2 ^ w) : (BitVec.ofNat w n).toNat = n := by
  rw [BitVec.toNat_ofNat, Nat.mod_eq_of_lt h]

/-- Settles O45, position by position. -/
theorem fillpixWritesEveryChannel : Obligations.FillpixWritesEveryChannel := by
  intro n r g b
  refine ⟨fun _ => rfl, fun i hi => ?_, ?_, fun i hi c hc => getElem?_fillpix r g b hi hc,
    getElem?_fillpix_last n r g b, fun hn => ?_⟩
  · exact ⟨_, _, _, toNat_ofNat_of_lt (by omega), toNat_ofNat_of_lt (by omega),
      toNat_ofNat_of_lt (by omega), rfl⟩
  · rw [fillpix, List.length_append, length_flatMap_setpix, List.length_singleton]
  · exact ⟨_, toNat_ofNat_of_lt hn, getElem?_fillpix_last n r g b⟩

/-! ### Characters and bytes (R19, R182) -/

/-- Everything the mapping of a string can do: its bytes have it as their string, or one of its code
points is above 255 and is rejected. -/
theorem bytesOfString_cases (cs : List Nat) :
    (∃ bs, bytesOfString cs = .ok bs ∧ stringOfBytes bs = cs) ∨
      ∃ c ∈ cs, 255 < c ∧ bytesOfString cs = .error (.invalidCharacter c) := by
  induction cs with
  | nil => exact .inl ⟨[], rfl, rfl⟩
  | cons c cs ih =>
    rcases byteOfChar_cases c with ⟨b, hb, rfl⟩ | ⟨hc, he⟩
    · rcases ih with ⟨bs, hbs, rfl⟩ | ⟨c', hmem, hc', he'⟩
      · exact .inl ⟨b :: bs, by simp [bytesOfString, hbs], rfl⟩
      · exact .inr ⟨c', .tail _ hmem, hc', by simp [bytesOfString, he']⟩
    · exact .inr ⟨c, .head _, hc, by simp [bytesOfString, he]⟩

theorem bytesOfString_stringOfBytes (bs : List Byte) :
    bytesOfString (stringOfBytes bs) = .ok bs := by
  induction bs with
  | nil => rfl
  | cons b bs ih => simp [bytesOfString, ih]

theorem le_of_mem_stringOfBytes {bs : List Byte} {c : Nat} (h : c ∈ stringOfBytes bs) : c ≤ 255 := by
  obtain ⟨b, -, rfl⟩ := List.mem_map.1 h
  exact Nat.le_of_lt_succ b.isLt

/-- A string has bytes exactly if it is the string of those bytes. -/
theorem bytesOfString_eq_ok {cs : List Nat} {bs : List Byte} :
    bytesOfString cs = .ok bs ↔ stringOfBytes bs = cs := by
  refine ⟨fun h => ?_, fun h => h ▸ bytesOfString_stringOfBytes bs⟩
  rcases bytesOfString_cases cs with ⟨bs', h', rfl⟩ | ⟨c, -, -, h'⟩
  · rw [Except.ok.inj (h.symm.trans h')]
  · cases h.symm.trans h'

/-- What a `getmsg` recovers that is answered with the length of a byte string and its bytes. -/
theorem messageOfGetmsg_ok {bs : List Byte} (h : bs.length < 2 ^ 32) :
    messageOfGetmsg (.ok (BitVec.ofNat 32 bs.length) :: bs.map fun b => .ok (b.setWidth 32)) =
      some (stringOfBytes bs) := by
  rw [messageOfGetmsg, toNat_ofNat_of_lt h, List.length_map, if_pos rfl, bytesOfResponses_ok,
    Option.map_some]

/-! ### `setmsg` (R94, R182) -/

@[simp] theorem length_writeMessageEvents (k : Nat) (bs : List Byte) :
    (writeMessageEvents k bs).length = bs.length := by
  induction bs generalizing k with
  | nil => rfl
  | cons b bs ih => simp [writeMessageEvents, ih]

theorem getElem?_writeMessageEvents (k i : Nat) (bs : List Byte) :
    (writeMessageEvents k bs)[i]? = bs[i]?.map (wmsg (k + i)) := by
  induction bs generalizing k i with
  | nil => rfl
  | cons b bs ih =>
    cases i with
    | zero => rfl
    | succ i => simp [writeMessageEvents, ih, Nat.add_assoc, Nat.add_comm 1]

/-- Everything `setmsg` can do (R94, R182): the expansion of a byte string whose string this is, or a
rejection. -/
theorem setmsg_cases (cs : List Nat) :
    (∃ bs, stringOfBytes bs = cs ∧ setmsg cs =
        .ok (writeMessageEvents 0 bs ++ [wreg .msglen (BitVec.ofNat 32 cs.length)])) ∨
      ∃ c ∈ cs, 255 < c ∧ setmsg cs = .error (.invalidCharacter c) := by
  rcases bytesOfString_cases cs with ⟨bs, h, rfl⟩ | ⟨c, hmem, hc, h⟩
  · exact .inl ⟨bs, rfl, by simp [setmsg, h]⟩
  · exact .inr ⟨c, hmem, hc, by simp [setmsg, h]⟩

section
variable {cs : List Nat} {es : List HostEvent} (h : setmsg cs = .ok es)
include h

theorem setmsg_ok : ∃ bs, stringOfBytes bs = cs ∧
    es = writeMessageEvents 0 bs ++ [wreg .msglen (BitVec.ofNat 32 cs.length)] := by
  rcases setmsg_cases cs with ⟨bs, hbs, h'⟩ | ⟨c, -, -, h'⟩
  · exact ⟨bs, hbs, Except.ok.inj (h.symm.trans h')⟩
  · cases h.symm.trans h'

theorem length_setmsg : es.length = cs.length + 1 := by
  obtain ⟨bs, rfl, rfl⟩ := setmsg_ok h
  simp

theorem getElem?_setmsg {k : Nat} (hk : k < cs.length) :
    es[k]? = some (wmsg k (BitVec.ofNat 8 cs[k])) := by
  obtain ⟨bs, rfl, rfl⟩ := setmsg_ok h
  rw [length_stringOfBytes] at hk
  rw [List.getElem?_append_left (by simpa using hk), getElem?_writeMessageEvents]
  simp [hk, stringOfBytes, charOfByte]

theorem getElem?_setmsg_last :
    es[cs.length]? = some (wreg .msglen (BitVec.ofNat 32 cs.length)) := by
  obtain ⟨bs, rfl, rfl⟩ := setmsg_ok h
  simp

end

/-- Settles O46: what is accepted is the string of its bytes, and what is rejected has a code point that
no byte has. -/
theorem setmsgExpandsOrRejects : Obligations.SetmsgExpandsOrRejects := by
  intro cs
  refine ⟨fun hcs => ?_, fun c hmem hc => ?_, fun bs h => ?_, bytesOfString_stringOfBytes⟩
  · obtain ⟨_, -, h⟩ | ⟨c, hmem, hc, -⟩ := setmsg_cases cs
    · refine ⟨_, h, length_setmsg h, fun k hk => getElem?_setmsg h hk, getElem?_setmsg_last h,
        fun hlt => ⟨fun k hk => ?_, _, toNat_ofNat_of_lt hlt, getElem?_setmsg_last h⟩⟩
      have hbyte : cs[k] < 2 ^ 8 := Nat.lt_succ_of_le (hcs _ (List.getElem_mem hk))
      exact ⟨_, _, toNat_ofNat_of_lt (hk.trans hlt), toNat_ofNat_of_lt hbyte,
        getElem?_setmsg h hk⟩
    · exact absurd (hcs c hmem) (Nat.not_le.2 hc)
  · obtain ⟨bs, rfl, -⟩ | ⟨c', hmem', hc', he⟩ := setmsg_cases cs
    · exact absurd (le_of_mem_stringOfBytes hmem) (Nat.not_le.2 hc)
    · exact ⟨c', hmem', hc', he⟩
  · obtain rfl := bytesOfString_eq_ok.1 h
    rw [length_stringOfBytes]
    exact ⟨rfl, messageOfGetmsg_ok⟩

end Sys2Proof.Machine
end

section
/-! PROOF. The completion step of ENCODE (R104 to R117): what it reads, when it fits, and what each byte
of PIXMEM holds afterwards (O14 to O20). -/

namespace Sys2Proof.Machine

variable {s t : State}

/-! ### LSB replacement and equal memories -/

theorem toNat_and_high : ∀ v : Byte, (v &&& 0xFE#8).toNat = 2 * (v.toNat / 2) := by decide

/-- Channels with the same bits 7:1 are at most 1 apart (R111). -/
theorem toNat_le_of_high_eq {v w : Byte} (h : w &&& 0xFE#8 = v &&& 0xFE#8) :
    w.toNat ≤ v.toNat + 1 := by
  have h2 := congrArg BitVec.toNat h
  rw [toNat_and_high, toNat_and_high] at h2
  omega

theorem Memory.get_eq_lookupCell {m : Memory} (hf : m.fill = .uninit) (a : Nat) :
    m.get a = lookupCell a m.cells := by
  rw [Memory.get, hf]
  cases lookupCell a m.cells <;> rfl

/-- Canonical memories whose unlisted bytes are uninitialised are the same datum if they hold the same
bytes. -/
theorem Memory.ext_of_get {m m' : Memory} (hm : m.wf) (hm' : m'.wf) (hf : m.fill = .uninit)
    (hf' : m'.fill = .uninit) (h : ∀ a, m.get a = m'.get a) : m = m' :=
  Memory.ext_of_lookup hm hm' (hf.trans hf'.symm) fun a => by
    rw [← Memory.get_eq_lookupCell hf, ← Memory.get_eq_lookupCell hf', h]

/-! ### The registers after a completion -/

theorem statusBecomes_complete (k : ResultCode) {u : State} (hu : u.status = s.status) :
    s.statusBecomes (complete k u) false k.code :=
  ⟨busy_complete k u, result_complete k u, by simp [hu]⟩

/-- MAXCHARS holds floor(3 × N / 8) without wrapping (R108). -/
theorem toNat_maxchars_recordMaxchars (s : State) :
    (recordMaxchars s).maxchars.toNat = 3 * s.npix.toNat / 8 := by
  have hn := s.npix.isLt
  exact toNat_ofNat_of_lt (by omega : 3 * s.npix.toNat / 8 < 2 ^ 32)

/-! ### What the completion reads and writes -/

/-- A payload that exists and holds values is read as it stands (R39). -/
theorem readPayload_of_initialised (hl : s.msglen.toNat ≤ s.params.msgCap.toNat)
    (hm : s.msg.initialised s.msglen.toNat) :
    readPayload s = .ok (s.msg.prefixBytes s.msglen.toNat, s) :=
  readBytes_of_get _ 0 (by rw [Nat.zero_add]; exact hl) fun i hi => by
    rw [Nat.zero_add]
    exact Memory.get_eq_byte (hm i hi)

/-- The capacity check comes before the first write (R109). -/
theorem encodeCompletion_tooLong {m : List Byte} {s1 : State} (hread : readPayload s = .ok (m, s1))
    (hlong : s.streamLen > s.capacity) :
    encodeCompletion s = .next (complete .capacityExceeded (recordMaxchars s1)) := by
  simp [encodeCompletion, hread, hlong]

/-- A bitstream that fits an initialised carrier is written, and no free value is drawn (R104). -/
theorem encodeCompletion_fits {m : List Byte} (hread : readPayload s = .ok (m, s))
    (hfits : s.streamLen ≤ s.capacity) (hcap : s.capacity ≤ s.extent .pix)
    (hinit : s.pix.initialised s.streamLen) :
    ∃ p, encodeCompletion s = .next (complete .ok (recordMaxchars { s with pix := p })) := by
  obtain ⟨u, hpack⟩ : ∃ u, packBits (framed m) s.streamLen 0 (recordMaxchars s) = .ok u :=
    packBits_exists (by simpa using hfits.trans hcap) (.inr fun a _ ha => hinit a (by omega))
  obtain ⟨hu, -, -, -, -, -, -, hdraws⟩ := packBits_ok hpack
  rw [hdraws fun a _ ha => hinit a (by omega)] at hu
  refine ⟨u.pix, ?_⟩
  simp only [encodeCompletion, hread, Nat.not_lt.2 hfits, if_false, hpack]
  exact congrArg (fun v => Host.Outcome.next (complete .ok v)) hu

/-- The byte at `a` after the bit cursor, unless it was to be rewritten and held no value (R105, R106). -/
theorem packBits_get {f : List Byte} {n a : Nat} (h : packBits f n 0 s = .ok t)
    (ha : a < n → s.pix.get a ≠ none) :
    t.pix.get a =
      if a < n then some (replaceLsb (s.pix.byte a) (streamBit f a)) else s.pix.get a := by
  obtain ⟨-, -, -, -, -, hout, hin, -⟩ := packBits_ok h
  split_ifs with han
  · obtain ⟨ch, hch, hold⟩ := hin a (Nat.zero_le a) (by omega)
    rw [hch, hold _ (Memory.get_eq_byte (ha han))]
  · exact hout a (by omega)

/-- The byte at `a` after a completion of ENCODE, unless it was to be rewritten and held no value
(R105 to R107, R109). -/
theorem encodeCompletion_get (h : encodeCompletion s = .next t) :
    ∃ m s1, readPayload s = .ok (m, s1) ∧ ∀ a, (a < s.streamLen → s.pix.get a ≠ none) →
      t.pix.get a =
        if s.streamLen ≤ s.capacity ∧ a < s.streamLen then
          some (replaceLsb (s.pix.byte a) (streamBit (framed m) a))
        else s.pix.get a := by
  obtain ⟨m, s1, hread, hs1, ⟨hlong, rfl⟩ | ⟨hfits, u, hpack, rfl⟩⟩ := encodeCompletion_next h
  · refine ⟨m, s1, hread, fun a _ => ?_⟩
    rw [if_neg fun hc => absurd hc.1 (Nat.not_le.2 hlong), hs1]
    rfl
  · refine ⟨m, s1, hread, fun a ha => ?_⟩
    have hpix : (recordMaxchars s1).pix = s.pix := by rw [hs1]; rfl
    rw [complete_pix, packBits_get hpack (hpix ▸ ha), hpix]
    simp only [hfits, true_and]

/-! ### Capacity (R103, R109, R112, R114) -/

/-- RESULT of a completion of ENCODE tells whether the bitstream fits (R103). -/
theorem result_encodeCompletion (h : encodeCompletion s = .next t) :
    t.result = 1 ↔ 8 * (s.msglen.toNat + 9) ≤ 3 * s.npix.toNat := by
  obtain ⟨m, s1, -, -, ⟨hlong, rfl⟩ | ⟨hfits, u, -, rfl⟩⟩ := encodeCompletion_next h
  · rw [result_complete]
    exact iff_of_false (by decide) (Nat.not_le.2 hlong)
  · rw [result_complete]
    exact iff_of_true rfl hfits

/-- Settles O15: either way the completion is the one of `encodeCompletion_tooLong`. -/
theorem encodeTooLongLeavesPixmem : Obligations.EncodeTooLongLeavesPixmem := by
  refine ⟨fun s hp hl hm hlong => ?_, fun s t hp h hlong => ?_⟩
  · have h := encodeCompletion_tooLong (readPayload_of_initialised hl hm) hlong
    exact ⟨_, (exec_encode_inFlight hp).trans h, rfl,
      statusBecomes_complete .capacityExceeded rfl, toNat_maxchars_recordMaxchars s⟩
  · rw [exec_encode_inFlight hp] at h
    obtain ⟨m, s1, -, hs1, ⟨-, rfl⟩ | ⟨hfits, -⟩⟩ := encodeCompletion_next h
    · rw [hs1]
      exact ⟨rfl, statusBecomes_complete .capacityExceeded rfl, toNat_maxchars_recordMaxchars s⟩
    · exact absurd hfits (Nat.not_le.2 hlong)

/-- Settles O16: the other three forms are arithmetic. -/
theorem encodeSucceedsExactlyWhenItFits : Obligations.EncodeSucceedsExactlyWhenItFits := by
  intro s t hp h n l
  have hresult : t.result = 1 ↔ 8 * (l + 9) ≤ 3 * n :=
    result_encodeCompletion ((exec_encode_inFlight hp).symm.trans h)
  refine ⟨hresult, hresult.trans ?_, hresult.trans ?_, hresult.trans ?_⟩ <;> omega

/-- Settles O20: without pixels no bitstream fits (O15). -/
theorem encodeWithoutPixels : Obligations.EncodeWithoutPixels := by
  intro s hp hn hl hm
  have hpixels : s.npix.toNat = 0 := by rw [hn]; rfl
  obtain ⟨t, ht, hframe, ⟨hbusy, hresult, -⟩, hmax⟩ :=
    encodeTooLongLeavesPixmem.1 s hp hl hm (by omega)
  refine ⟨t, ht, hresult, hbusy, BitVec.eq_of_toNat_eq ?_, (congrArg State.pix hframe :)⟩
  rw [hmax, hpixels]
  rfl

/-! ### What ENCODE writes and what it leaves unchanged -/

/-- Settles O14: the completion exists by `encodeCompletion_fits`, its bytes by `encodeCompletion_get`. -/
theorem encodeWritesTheBitstream : Obligations.EncodeWritesTheBitstream := by
  intro s hp hn hl hfits hm hinit f
  have hread := readPayload_of_initialised hl hm
  obtain ⟨p, h⟩ := encodeCompletion_fits hread hfits (Nat.mul_le_mul_left 3 hn) hinit
  obtain ⟨m, s1, hread', hget⟩ := encodeCompletion_get h
  obtain ⟨rfl, rfl⟩ : _ = m ∧ s = s1 := by simpa [hread] using hread'
  refine ⟨_, (exec_encode_inFlight hp).trans h, rfl, statusBecomes_complete .ok rfl,
    toNat_maxchars_recordMaxchars s, fun a => (hget a (hinit a)).trans ?_⟩
  exact if_congr (and_iff_right hfits) rfl rfl

/-- A channel that holds a value keeps its bits 7:1 (R107). -/
theorem exec_encode_high {a : Nat} {v : Byte} (h : exec .encode s = .next t)
    (hv : s.pix.get a = some v) :
    ∃ v', t.pix.get a = some v' ∧ v' &&& 0xFE#8 = v &&& 0xFE#8 := by
  by_cases hp : s.pending = some .encode
  · rw [exec_encode_inFlight hp] at h
    obtain ⟨m, s1, -, hget⟩ := encodeCompletion_get h
    have hbyte : s.pix.byte a = v := by rw [Memory.byte, hv]; rfl
    rw [hget a (by simp [hv]), hbyte]
    split_ifs
    · exact ⟨_, rfl, replaceLsb_high v _⟩
    · exact ⟨v, hv, rfl⟩
  · rw [(exec_next h).pix hp]
    exact ⟨v, hv, rfl⟩

/-- Settles O17: the same bits 7:1 are at most 1 apart. -/
theorem encodeKeepsTheCarrierBits : Obligations.EncodeKeepsTheCarrierBits := by
  intro s t h a v hv
  obtain ⟨v', hv', hhigh⟩ := exec_encode_high h hv
  exact ⟨v', hv', hhigh, toNat_le_of_high_eq hhigh, toNat_le_of_high_eq hhigh.symm⟩

theorem ExecEffect.frame_of_encode (h : ExecEffect .encode s t) :
    t.msg = s.msg ∧ t.reslen = s.reslen ∧ t.host = s.host := by
  cases h with
  | decoded _ _ _ _ hi => cases hi
  | _ => exact ⟨rfl, rfl, rfl⟩

/-- Settles O18, from the frame of every command word and of ENCODE. -/
theorem encodeNeverWrites : Obligations.EncodeNeverWrites := by
  intro s t h
  have heffect := exec_next h
  obtain ⟨hparams, hnpix, hmsglen⟩ := heffect.operands
  obtain ⟨hmsg, hreslen, hhost⟩ := heffect.frame_of_encode
  exact ⟨hmsg, hnpix, hmsglen, hreslen, hparams, hhost, heffect.responses,
    fun a v hv => exec_encode_high h hv⟩

/-- Settles O19: each byte of PIXMEM is the same, hence so is the datum. -/
theorem encodeOfTheSameBitsLeavesPixmem : Obligations.EncodeOfTheSameBitsLeavesPixmem := by
  intro s t hs hp h hm hinit hbits
  rw [exec_encode_inFlight hp] at h
  obtain ⟨k, -, hfill, hwf, -⟩ := encodeCompletion_frame h
  obtain ⟨m, s1, hread, hget⟩ := encodeCompletion_get h
  have hread' := readPayload_of_initialised (msglen_le_of_configOk (hs.accepted _ hp)) hm
  obtain ⟨rfl, rfl⟩ : _ = m ∧ s = s1 := by simpa [hread'] using hread
  refine Memory.ext_of_get (hwf hs.pixWf) hs.pixWf (hfill.trans hs.pixFill) hs.pixFill fun a => ?_
  rw [hget a (hinit a)]
  split_ifs with ha
  · rw [← hbits a ha.2, Memory.lsb, replaceLsb_self, Memory.get_eq_byte (hinit a ha.2)]
  · rfl

end Sys2Proof.Machine
end

section
/-! PROOF. The completion step of DECODE (R130 to R147): the two ways its scan ends, the state each
of them leaves, and when a carrier has a match (O22 to O28). -/

namespace Sys2Proof.Machine

variable {s t s1 : State} {m m' : Memory} {n k : Nat}

/-! ### Units and matches (R132, R134) -/

theorem unit_of_bits : ∀ v : Byte, BitVec.ofNat 8
    (((List.range 8).map fun j => (v.getLsbD (7 - j)).toNat <<< (7 - j)).sum) = v := by decide

/-- A unit is the byte whose bits its eight LSBs are, MSB first (R132). -/
theorem Memory.unit_eq_of_lsb {v : Byte} (h : ∀ j < 8, m.lsb (8 * k + j) = v.getLsbD (7 - j)) :
    m.unit k = v := by
  rw [← unit_of_bits v, Memory.unit]
  congr 2
  exact List.map_congr_left fun j hj => by rw [h j (List.mem_range.1 hj)]

theorem Memory.unit_congr (h : ∀ j < 8, m'.lsb (8 * k + j) = m.lsb (8 * k + j)) :
    m'.unit k = m.unit k := by
  rw [Memory.unit, Memory.unit]
  congr 2
  exact List.map_congr_left fun j hj => by rw [h j (List.mem_range.1 hj)]

theorem delimEndsAt_congr (h : ∀ i < n, m'.unit i = m.unit i) (hk : k < n) :
    m'.delimEndsAt k ↔ m.delimEndsAt k :=
  and_congr_right fun h8 => forall₂_congr fun j hj => by rw [h (k - 8 + j) (by omega)]

theorem firstMatch_congr (h : ∀ i < n, m'.unit i = m.unit i) (hk : k < n) :
    m'.firstMatch k ↔ m.firstMatch k :=
  and_congr (delimEndsAt_congr h hk) (forall₂_congr fun _ hi =>
    not_congr (delimEndsAt_congr h (hi.trans hk)))

/-- If there is a match, there is a first one. -/
theorem exists_firstMatch (h : ∃ k < n, m.delimEndsAt k) : ∃ k < n, m.firstMatch k := by
  classical
  obtain ⟨hlt, hmatch⟩ := Nat.find_spec h
  exact ⟨Nat.find h, hlt, hmatch, fun i hi hm => Nat.find_min h hi ⟨hi.trans hlt, hm⟩⟩

/-- A carrier whose LSBs are all the same bit has no match: its units are 0x00, or 0xFF. -/
theorem not_delimEndsAt_of_uniform {b : Bool} (h : ∀ a < 8 * n, m.lsb a = b) (hk : k < n) :
    ¬ m.delimEndsAt k := by
  rintro ⟨h8, hm⟩
  have hunit : m.unit (k - 8) = if b then 0xFF#8 else 0x00#8 :=
    Memory.unit_eq_of_lsb fun j hj => by
      rw [h _ (by omega)]
      clear h
      revert j b
      decide
  have hfirst : m.unit (k - 8) = 0x7C#8 := hm 0 (by omega)
  rw [hunit] at hfirst
  cases b <;> simp at hfirst

@[simp] theorem Memory.length_unitString (m : Memory) (n : Nat) : (m.unitString n).length = n := by
  simp [Memory.unitString]

/-! ### How the scan ends (R134, R136) -/

theorem endsWith_firstMatch (h : m.firstMatch k) :
    endsWith (m.unitString (k + 1)) delim = true ∧
      ∀ i < k, endsWith (m.unitString (i + 1)) delim = false :=
  ⟨(endsWith_unitString m k).2 h.1, fun i hi =>
    Bool.eq_false_iff.2 (mt (endsWith_unitString m i).1 (h.2 i hi))⟩

/-- The units of a carrier lie within PIXMEM (R133). -/
theorem units_in_extent (hn : s.npix.toNat ≤ s.params.pixCap.toNat) :
    8 * s.units ≤ s.extent .pix :=
  (Nat.mul_div_le s.capacity 8).trans (Nat.mul_le_mul_left 3 hn)

theorem scan_of_firstMatch (hn : s.npix.toNat ≤ s.params.pixCap.toNat) (hk : k < s.units)
    (hinit : s.pix.initialised (8 * (k + 1))) (hm : s.pix.firstMatch k) :
    scanUnits s.units 0 [] s = .ok (some (s.pix.unitString (k - 8)), s) := by
  have hx := units_in_extent hn
  obtain ⟨hend, hbefore⟩ := endsWith_firstMatch hm
  exact scanUnits_found k s.units 0 (Nat.zero_add k) hk (by omega) hinit hend hbefore

theorem scan_of_noMatch (hn : s.npix.toNat ≤ s.params.pixCap.toNat)
    (hinit : s.pix.initialised (8 * s.units)) (hm : ∀ k < s.units, ¬ s.pix.delimEndsAt k) :
    scanUnits s.units 0 [] s = .ok (none, s) := by
  refine scanUnits_none s.units 0 ?_ ?_ fun i hi => ?_
  · rw [Nat.zero_add]
    exact units_in_extent hn
  · rwa [Nat.zero_add]
  · exact Bool.eq_false_iff.2 (mt (endsWith_unitString s.pix i).1 (hm i (by omega)))

/-- A scan that finds the delimiter saw its 9 units besides those of the message (R133). -/
theorem scanUnits_some {str r : List Byte} (h : scanUnits n k str s = .ok (some r, t)) :
    r.length + 9 ≤ str.length + n := by
  induction n generalizing k str s with
  | zero => simp [scanUnits] at h
  | succ n ih =>
    simp only [scanUnits] at h
    split at h
    · simp at h
    · rename_i u s2 _
      split at h
      · rename_i hend
        have hlen : 9 ≤ (str ++ [u]).length := (List.isSuffixOf_iff_suffix.1 hend).length_le
        obtain ⟨rfl, -⟩ : (str ++ [u]).take ((str ++ [u]).length - 9) = r ∧ s2 = t := by
          simpa using h
        rw [List.length_take]
        rw [List.length_append, List.length_singleton] at hlen ⊢
        omega
      · have hlen := ih h
        rw [List.length_append, List.length_singleton] at hlen
        omega

theorem scan_message_le {r : List Byte} (h : scanUnits s.units 0 [] s = .ok (some r, s1)) :
    r.length + 9 ≤ 3 * s.npix.toNat / 8 :=
  (scanUnits_some h).trans_eq (Nat.zero_add s.units)

/-- The scan runs to its end if no read of it can fault. -/
theorem scan_exists (hn : s.npix.toNat ≤ s.params.pixCap.toNat)
    (hr : s.params.uninit = .anyValue ∨ s.pix.initialised (8 * s.units)) :
    ∃ r s1, scanUnits s.units 0 [] s = .ok (r, s1) := by
  have hx := units_in_extent hn
  cases hscan : scanUnits s.units 0 [] s with
  | ok p => exact ⟨p.1, p.2, rfl⟩
  | error e =>
    obtain ⟨b, -, hb, ⟨-, hget, hpolicy⟩ | ⟨-, hout⟩⟩ := scanUnits_error hscan
    · rcases hr with hany | hinit
      · rw [hany] at hpolicy
        cases hpolicy
      · exact absurd hget (hinit b (by omega))
    · omega

/-! ### The state a completion leaves (R130, R136, R141) -/

/-- Where no unit is a match (R136). -/
def notFoundState (s : State) : State :=
  complete .notFound (recordReslen 0 (scratchMessage s))

/-- Where the message `r` was found: it stands at the head of MSGBUF, whose other bytes hold the free
value of this DECODE (R140, R141). -/
def foundState (r : List Byte) (s : State) : State :=
  complete .ok (recordReslen r.length
    ((scratchMessage s).withMem .msg ((Memory.scratch s.draws).setMany 0 r)))

theorem exec_decode_notFound (hp : s.pending = some .decode)
    (h : scanUnits s.units 0 [] s = .ok (none, s1)) :
    exec .decode s = .next (notFoundState s1) := by
  rw [exec_decode_inFlight hp, decodeCompletion, h]
  rfl

/-- A message found fits MSGBUF (R10, R133). -/
theorem exec_decode_found {r : List Byte} (hp : s.pending = some .decode)
    (hok : s.params.ok = true) (hn : s.npix.toNat ≤ s.params.pixCap.toNat)
    (h : scanUnits s.units 0 [] s = .ok (some r, s1)) :
    exec .decode s = .next (foundState r s1) := by
  have hlen := scan_message_le h
  have hcap : 3 * s.params.pixCap.toNat / 8 ≤ s.params.msgCap.toNat := by
    simp only [Params.ok, Bool.and_eq_true, decide_eq_true_eq] at hok
    exact hok.2
  have hfits : 0 + r.length ≤ (scratchMessage s1).extent .msg := by
    have hx : (scratchMessage s1).extent .msg = s.params.msgCap.toNat := by
      rw [(scanUnits_ok h).1]
      rfl
    omega
  rw [exec_decode_inFlight hp, decodeCompletion, h]
  simp only [writeBytes_of_le r 0 _ hfits]
  rfl

theorem exec_decode_fault {e : Fault} (hp : s.pending = some .decode)
    (h : scanUnits s.units 0 [] s = .error e) : exec .decode s = .fault e := by
  rw [exec_decode_inFlight hp, decodeCompletion, h]

theorem foundState_msg_get (r : List Byte) (s : State) (i : Nat) :
    (foundState r s).msg.get i =
      if i < r.length then r[i]? else some (Config.decodeScratch s.draws i) := by
  simp [foundState, Memory.get_setMany]

/-- RESLEN holds the length of a message without wrapping (R133). -/
theorem toNat_reslen_foundState {r : List Byte} (h : scanUnits s.units 0 [] s = .ok (some r, s1)) :
    (foundState r s1).reslen.toNat = r.length := by
  have hlen := scan_message_le h
  have hn := s.npix.isLt
  exact toNat_ofNat_of_lt (by omega : r.length < 2 ^ 32)

/-! ### DECODE over an initialised carrier (R134 to R136, R139 to R142, R147) -/

/-- Settles O22: the scan returns the units before the match, and `foundState` lists them. -/
theorem decodeReturnsTheFirstMatch : Obligations.DecodeReturnsTheFirstMatch := by
  intro s k hp hok hn hk hinit hm
  have hscan := scan_of_firstMatch hn hk hinit hm
  refine ⟨_, exec_decode_found hp hok hn hscan, rfl, statusBecomes_complete .ok rfl,
    (toNat_reslen_foundState hscan).trans (Memory.length_unitString _ _), fun i hi => ?_,
    fun i => ?_⟩
  · rw [foundState_msg_get, Memory.length_unitString, if_pos hi]
    simp [Memory.unitString, hi]
  · rw [foundState_msg_get]
    split_ifs with hi
    · rw [List.getElem?_eq_getElem hi]
      exact Option.some_ne_none _
    · exact Option.some_ne_none _

/-- Settles O23: the scan runs over all units, and every byte of MSGBUF holds its free value. -/
theorem decodeReportsNotFound : Obligations.DecodeReportsNotFound := by
  intro s hp hn hinit hm
  refine ⟨_, exec_decode_notFound hp (scan_of_noMatch hn hinit hm), rfl,
    statusBecomes_complete .notFound rfl, fun i => ?_⟩
  exact Option.some_ne_none (Config.decodeScratch s.draws i)

theorem ExecEffect.frame_of_decode (h : ExecEffect .decode s t) :
    t.pix = s.pix ∧ t.maxchars = s.maxchars ∧ t.host = s.host := by
  cases h with
  | encoded _ _ _ hi => cases hi
  | _ => exact ⟨rfl, rfl, rfl⟩

/-- Settles O24, from the frame of every command word and of DECODE. -/
theorem decodeNeverWrites : Obligations.DecodeNeverWrites := by
  intro s t h
  have heffect := exec_next h
  obtain ⟨hparams, hnpix, hmsglen⟩ := heffect.operands
  obtain ⟨hpix, hmaxchars, hhost⟩ := heffect.frame_of_decode
  exact ⟨hpix, hnpix, hmsglen, hmaxchars, hparams, hhost, heffect.responses⟩

/-- Settles O25: fewer than 24 pixels have fewer than the 9 units of a match. -/
theorem decodeOfASmallCarrier : Obligations.DecodeOfASmallCarrier := by
  intro s hp hn hsmall hr
  obtain ⟨_ | r, s1, hscan⟩ := scan_exists hn hr
  · exact ⟨_, exec_decode_notFound hp hscan, result_complete .notFound _, busy_complete .notFound _,
      rfl⟩
  · have hlen := scan_message_le hscan
    omega

/-- Settles O26: a uniform carrier has no match (O23). -/
theorem decodeOfUniformLsbs : Obligations.DecodeOfUniformLsbs := by
  intro s b hp hn hinit hb
  have hle : 8 * (3 * s.npix.toNat / 8) ≤ 3 * s.npix.toNat := Nat.mul_div_le _ 8
  obtain ⟨t, ht, hframe, ⟨hbusy, hresult, -⟩, -⟩ := decodeReportsNotFound s hp hn
    (fun a ha => hinit a (by omega))
    (fun k hk => not_delimEndsAt_of_uniform (fun a ha => hb a (by omega)) hk)
  exact ⟨t, ht, hresult, hbusy, (congrArg State.reslen hframe :)⟩

/-- Settles O27: the same LSBs are the same units, so both carriers have the same first match (O22), or
both have none (O23). -/
theorem decodeIsPure : Obligations.DecodeIsPure := by
  intro s s' hp hp' hok hok' hnpix hn hn' hinit hinit' hlsb
  have hle : 8 * (3 * s.npix.toNat / 8) ≤ 3 * s.npix.toNat := Nat.mul_div_le _ 8
  have hunit : ∀ k < 3 * s.npix.toNat / 8, s'.pix.unit k = s.pix.unit k := fun k hk =>
    Memory.unit_congr fun j hj => hlsb _ (by omega)
  by_cases h : ∃ k < 3 * s.npix.toNat / 8, s.pix.delimEndsAt k
  · obtain ⟨k, hk, hm⟩ := exists_firstMatch h
    obtain ⟨t, ht, -, ⟨-, hres, -⟩, hlen, hget, -⟩ := decodeReturnsTheFirstMatch s k hp hok hn hk
      (fun a ha => hinit a (by omega)) hm
    obtain ⟨t', ht', -, ⟨-, hres', -⟩, hlen', hget', -⟩ := decodeReturnsTheFirstMatch s' k hp' hok'
      hn' (hnpix ▸ hk) (fun a ha => hinit' a (by omega)) ((firstMatch_congr hunit hk).2 hm)
    refine ⟨t, t', ht, ht', hres'.trans hres.symm, BitVec.eq_of_toNat_eq (hlen'.trans hlen.symm),
      fun i hi => ?_⟩
    rw [hget' i (by omega), hget i (by omega), hunit i (by omega)]
  · have hnone : ∀ k < 3 * s.npix.toNat / 8, ¬ s.pix.delimEndsAt k := fun k hk hm => h ⟨k, hk, hm⟩
    obtain ⟨t, ht, hframe, ⟨-, hres, -⟩, -⟩ := decodeReportsNotFound s hp hn
      (fun a ha => hinit a (by omega)) hnone
    obtain ⟨t', ht', hframe', ⟨-, hres', -⟩, -⟩ := decodeReportsNotFound s' hp' hn'
      (fun a ha => hinit' a (by rw [hnpix] at ha; omega))
      (fun k hk => by rw [hnpix] at hk; exact mt (delimEndsAt_congr hunit hk).1 (hnone k hk))
    have hreslen : t.reslen = 0 := (congrArg State.reslen hframe :)
    have hreslen' : t'.reslen = 0 := (congrArg State.reslen hframe' :)
    refine ⟨t, t', ht, ht', hres'.trans hres.symm, hreslen'.trans hreslen.symm, fun i hi => ?_⟩
    rw [hreslen] at hi
    exact absurd hi (Nat.not_lt_zero i)

/-- Settles O28, by the three ways the scan can end. -/
theorem decodeIsRobust : Obligations.DecodeIsRobust := by
  intro s hp hok hn
  cases hscan : scanUnits s.units 0 [] s with
  | ok p =>
    obtain ⟨_ | r, s1⟩ := p
    · exact .inl ⟨_, exec_decode_notFound hp hscan, rfl,
        .inr ⟨result_complete .notFound _, rfl⟩⟩
    · have hlen := scan_message_le hscan
      refine .inl ⟨_, exec_decode_found hp hok hn hscan, rfl, .inl ⟨result_complete .ok _, ?_⟩⟩
      rw [toNat_reslen_foundState hscan]
      omega
  | error e =>
    have hx := units_in_extent hn
    have hle : 8 * s.units ≤ 3 * s.npix.toNat := Nat.mul_div_le _ 8
    obtain ⟨b, -, hb, ⟨rfl, hget, hpolicy⟩ | ⟨-, hout⟩⟩ := scanUnits_error hscan
    · exact .inr ⟨hpolicy, b, by omega, hget, exec_decode_fault hp hscan⟩
    · omega

end Sys2Proof.Machine
end

section
/-! PROOF. The round trip (R145, R146): ENCODE leaves the framed message in the units of the carrier,
and DECODE stops at the first place where the delimiter stands in it (O29, O30). -/

namespace Sys2Proof.Machine

variable {s t : State} {f l : List Byte} {p : Nat}

/-! ### The first place of the delimiter in a byte string -/

/-- The delimiter stands in `f` at byte `p`, and at no byte before it. -/
def FirstDelim (f : List Byte) (p : Nat) : Prop :=
  delim <+: f.drop p ∧ ∀ q < p, ¬ delim <+: f.drop q

theorem FirstDelim.add_nine_le (h : FirstDelim f p) : p + 9 ≤ f.length := by
  have hlen : 9 ≤ (f.drop p).length := h.1.length_le
  rw [List.length_drop] at hlen
  omega

theorem exists_firstDelim_le {q : Nat} (h : delim <+: f.drop q) : ∃ p ≤ q, FirstDelim f p := by
  classical
  have hex : ∃ p, delim <+: f.drop p := ⟨q, h⟩
  exact ⟨Nat.find hex, Nat.find_min' hex h, Nat.find_spec hex, fun _ => Nat.find_min hex⟩

/-- In a framed message the delimiter stands at byte L, so first there or before (R87). -/
theorem exists_firstDelim_framed (l : List Byte) : ∃ p ≤ l.length, FirstDelim (framed l) p :=
  exists_firstDelim_le (by rw [framed, List.drop_left])

theorem isInfix_iff_exists_drop : delim <:+: f ↔ ∃ q, delim <+: f.drop q := by
  constructor
  · rintro ⟨u, v, rfl⟩
    exact ⟨u.length, v, by simp⟩
  · rintro ⟨q, hq⟩
    exact hq.isInfix.trans (List.drop_suffix q f).isInfix

/-- The places of the delimiter in M ++ DELIM[0..8) are those in the framed message but the one at
byte L. -/
theorem delim_prefix_drop_iff (l : List Byte) (q : Nat) :
    delim <+: (l ++ delim.take 8).drop q ↔ q < l.length ∧ delim <+: (framed l).drop q := by
  have hf : l ++ delim.take 8 = (framed l).take (l.length + 8) := by
    rw [framed, List.take_length_add_append]
  have hd : delim.length = 9 := rfl
  rw [hf, List.drop_take, List.prefix_take_iff, hd, and_comm]
  exact and_congr_left fun _ => by omega

theorem firstDelim_take_iff (l : List Byte) (p : Nat) :
    FirstDelim (l ++ delim.take 8) p ↔ p < l.length ∧ FirstDelim (framed l) p := by
  simp only [FirstDelim, delim_prefix_drop_iff, and_assoc]
  refine and_congr_right fun hp => and_congr_right fun _ => forall₂_congr fun q hq => ?_
  rw [not_and]
  exact forall_prop_of_true (hq.trans hp)

/-- Whether the delimiter occurs in M ++ DELIM[0..8) is whether it first stands before byte L. -/
theorem isInfix_take_iff (h : FirstDelim (framed l) p) :
    delim <:+: l ++ delim.take 8 ↔ p < l.length := by
  simp only [isInfix_iff_exists_drop, delim_prefix_drop_iff]
  constructor
  · rintro ⟨q, hq, hd⟩
    by_contra hp
    exact h.2 q (by omega) hd
  · exact fun hp => ⟨p, hp, h.1⟩

/-! ### Units as a byte string -/

@[simp] theorem Memory.length_prefixBytes (m : Memory) (n : Nat) :
    (m.prefixBytes n).length = n := by
  simp [Memory.prefixBytes]

theorem take_unitString (m : Memory) {i n : Nat} (h : i ≤ n) :
    (m.unitString n).take i = m.unitString i := by
  simp [Memory.unitString, ← List.map_take, List.take_range, h]

/-- The delimiter ends at unit q + 8 exactly if it stands at byte q of the units. -/
theorem delimEndsAt_iff_prefix (m : Memory) {q n : Nat} (h : q + 9 ≤ n) :
    m.delimEndsAt (q + 8) ↔ delim <+: (m.unitString n).drop q := by
  have hd : delim.length = 9 := rfl
  rw [← endsWith_unitString, endsWith, List.isSuffixOf_iff_suffix, List.suffix_iff_eq_drop,
    List.prefix_iff_eq_take, hd, Memory.length_unitString, ← take_unitString m h, List.drop_take]
  simp

/-- The first match of a carrier is at the delimiter's last byte (R134). -/
theorem firstMatch_of_firstDelim {m : Memory} {n : Nat} (h : FirstDelim (m.unitString n) p) :
    m.firstMatch (p + 8) := by
  have hp : p + 9 ≤ n := by simpa using h.add_nine_le
  refine ⟨(delimEndsAt_iff_prefix m hp).2 h.1, fun k hk hm => ?_⟩
  obtain ⟨q, rfl⟩ : ∃ q, k = q + 8 := ⟨k - 8, (Nat.sub_add_cancel hm.1).symm⟩
  exact h.2 q (by omega) ((delimEndsAt_iff_prefix m (by omega)).1 hm)

/-- LSBs that are a bitstream spell its bytes (R88, R132). -/
theorem unitString_of_streamBit {m : Memory}
    (h : ∀ a < 8 * f.length, m.lsb a = streamBit f a) : m.unitString f.length = f := by
  refine List.ext_getElem (by simp) fun k hk hkf => ?_
  have hunit : m.unit k = f[k] := Memory.unit_eq_of_lsb fun j hj => by
    rw [h _ (by omega), streamBit, show (8 * k + j) / 8 = k by omega,
      show (8 * k + j) % 8 = j by omega]
    simp [hkf]
  simpa [Memory.unitString] using hunit

/-! ### The two commands from an idle state -/

/-- What makes ENCODE succeed from an idle state: the operands are in range and initialised, and the
bitstream fits. -/
structure State.Encodable (s : State) : Prop where
  idle : s.pending = none
  pixels : s.npix.toNat ≤ s.params.pixCap.toNat
  payload : s.msglen.toNat ≤ s.params.msgCap.toNat
  fits : 8 * (s.msglen.toNat + 9) ≤ 3 * s.npix.toNat
  payloadInit : s.msg.initialised s.msglen.toNat
  carrierInit : s.pix.initialised (8 * (s.msglen.toNat + 9))

/-- The payload of a state, framed (R87). -/
def State.frame (s : State) : List Byte := framed (s.msg.prefixBytes s.msglen.toNat)

theorem State.length_frame (s : State) : s.frame.length = s.msglen.toNat + 9 := by
  simp [State.frame, framed, delim]

/-- ENCODE, accepted and completed, leaves the framed message in the units of the carrier (O14). -/
theorem encode_accepted_completes (hs : s.Encodable) :
    ∃ a b, exec .encode s = .next a ∧ exec .encode a = .next b ∧ b.result = 1 ∧
      b.pending = none ∧ b.params = s.params ∧ b.npix = s.npix ∧
      b.pix.initialised (8 * s.frame.length) ∧ b.pix.unitString s.frame.length = s.frame := by
  have hconfig : configOk .encode s = true := by
    simp [configOk, hs.pixels, hs.payload]
  have hissue : exec .encode s = .next (accept .encode s) := by
    rw [exec_encode_idle hs.idle, issue, if_pos hconfig]
  obtain ⟨b, hb, hframe, ⟨-, hresult, -⟩, -, hget⟩ := encodeWritesTheBitstream (accept .encode s) rfl
    hs.pixels hs.payload hs.fits hs.payloadInit hs.carrierInit
  have hwritten : ∀ a < 8 * s.frame.length,
      b.pix.get a = some (replaceLsb (s.pix.byte a) (streamBit s.frame a)) := fun a ha => by
    rw [State.length_frame] at ha
    exact (hget a).trans (if_pos ha)
  refine ⟨_, b, hissue, hb, hresult, (congrArg State.pending hframe :),
    (congrArg State.params hframe :), (congrArg State.npix hframe :), fun a ha => ?_,
    unitString_of_streamBit fun a ha => ?_⟩
  · rw [hwritten a ha]
    exact Option.some_ne_none _
  · rw [Memory.lsb, Memory.byte, hwritten a ha]
    exact replaceLsb_lsb _ _

/-- DECODE, accepted and completed over units that spell `f`, returns the bytes of `f` before its first
delimiter (O22). -/
theorem decode_accepted_completes (hp : s.pending = none) (hok : s.params.ok = true)
    (hn : s.npix.toNat ≤ s.params.pixCap.toNat) (hlen : f.length ≤ 3 * s.npix.toNat / 8)
    (hinit : s.pix.initialised (8 * f.length)) (hunits : s.pix.unitString f.length = f)
    (hfirst : FirstDelim f p) :
    ∃ c d, exec .decode s = .next c ∧ exec .decode c = .next d ∧ d.result = 1 ∧
      d.reslen.toNat = p ∧ ∀ i < p, d.msg.get i = f[i]? := by
  have hissue : exec .decode s = .next (accept .decode s) := by
    rw [exec_decode_idle hp, issue, if_pos (by simpa [configOk] using hn)]
  have hp9 := hfirst.add_nine_le
  have hmatch : s.pix.firstMatch (p + 8) := firstMatch_of_firstDelim (by rwa [hunits])
  obtain ⟨d, hd, -, ⟨-, hresult, -⟩, hreslen, hget, -⟩ :=
    decodeReturnsTheFirstMatch (accept .decode s) (p + 8) rfl hok hn
      (by simp only [accept_npix]; omega) (fun a ha => hinit a (by omega)) hmatch
  refine ⟨_, d, hissue, hd, hresult, hreslen, fun i hi => ?_⟩
  rw [hget i hi, ← hunits]
  simp [Memory.unitString, show i < f.length by omega]

/-- ENCODE and then DECODE return the payload before the first delimiter of the framed message. -/
theorem encode_decode_completes (hs : s.Encodable) (hok : s.params.ok = true)
    (hfirst : FirstDelim s.frame p) :
    ∃ a b c d, exec .encode s = .next a ∧ exec .encode a = .next b ∧ b.result = 1 ∧
      exec .decode b = .next c ∧ exec .decode c = .next d ∧ d.result = 1 ∧ d.reslen.toNat = p ∧
      ∀ i < p, d.msg.get i = s.msg.get i := by
  obtain ⟨a, b, ha, hb, hresult, hidle, hparams, hnpix, hinit, hunits⟩ := encode_accepted_completes hs
  have hfits := hs.fits
  have hlen := s.length_frame
  have hp9 := hfirst.add_nine_le
  obtain ⟨c, d, hc, hd, hresult', hreslen, hget⟩ := decode_accepted_completes hidle (by rwa [hparams])
    (by rw [hparams, hnpix]; exact hs.pixels) (by rw [hnpix]; omega) hinit hunits hfirst
  refine ⟨a, b, c, d, ha, hb, hresult, hc, hd, hresult', hreslen, fun i hi => ?_⟩
  have hi' : i < s.msglen.toNat := by omega
  rw [hget i hi, State.frame, framed, List.getElem?_append_left (by simpa using hi'),
    Memory.get_eq_byte (hs.payloadInit i hi')]
  simp [Memory.prefixBytes, hi']

/-- Settles O29: DECODE returns the bytes before the first delimiter of the framed message, which are
all of the payload exactly if there is none before byte L. -/
theorem roundTrip : Obligations.RoundTrip := by
  intro s hp hok hn hl hfits hm hinit
  obtain ⟨p, hpL, hfirst⟩ := exists_firstDelim_framed (s.msg.prefixBytes s.msglen.toNat)
  obtain ⟨a, b, c, d, ha, hb, hresult, hc, hd, hresult', hreslen, hget⟩ :=
    encode_decode_completes ⟨hp, hn, hl, hfits, hm, hinit⟩ hok hfirst
  refine ⟨a, b, c, d, ha, hb, hresult, hc, hd, ?_⟩
  rw [isInfix_take_iff hfirst]
  rw [Memory.length_prefixBytes] at hpL ⊢
  refine ⟨fun ⟨_, hlen, _⟩ hlt => ?_, fun hnlt => ?_⟩
  · rw [hlen] at hreslen
    omega
  · obtain rfl : p = s.msglen.toNat := by omega
    exact ⟨hresult', BitVec.eq_of_toNat_eq hreslen, hget⟩

/-- Settles O30: the first delimiter of M ++ DELIM[0..8) is that of the framed message. -/
theorem roundTripStopsAtTheFirstDelimiter : Obligations.RoundTripStopsAtTheFirstDelimiter := by
  intro s p hp hok hn hl hfits hm hinit hdelim hbefore
  obtain ⟨hpL, hfirst⟩ := (firstDelim_take_iff _ p).1 ⟨hdelim, hbefore⟩
  obtain ⟨a, b, c, d, ha, hb, -, hc, hd, hresult⟩ :=
    encode_decode_completes ⟨hp, hn, hl, hfits, hm, hinit⟩ hok hfirst
  rw [Memory.length_prefixBytes] at hpL
  exact ⟨hpL, a, b, c, d, ha, hb, hc, hd, hresult⟩

end Sys2Proof.Machine
end

section
/-! PROOF. A command word before it is in flight (R160 to R166): NOP, the illegal words, and the
configuration check at issue (O5 to O9, O11). -/

namespace Sys2Proof.Machine

variable {s : State} {rest : List HostEvent}

/-! ### A write to CMD (R160) -/

theorem step_writeCmd {w : Word} (hn : s.hostNext (.transaction (.regWrite 0 w)) rest)
    (hb : s.busy = false) :
    step s = thenRespond (.ok 0) (exec (decodeWord w) (takeEvent rest s)) := by
  rw [step_transaction hn]
  exact hostTransaction_writeReg (x := .cmd) w hb rfl

theorem step_writeCmd_next {w : Word} {t : State}
    (hn : s.hostNext (.transaction (.regWrite 0 w)) rest) (hb : s.busy = false)
    (h : exec (decodeWord w) (takeEvent rest s) = .next t) :
    step s = .next (respond (.ok 0) t) := by
  rw [step_writeCmd hn hb, h]
  rfl

/-- Settles O11: `thenRespond`, outcome by outcome. -/
theorem stepRunsTheDecodedCommand : Obligations.StepRunsTheDecodedCommand := by
  intro s w rest hn hb
  rw [step_writeCmd hn hb]
  cases exec (decodeWord w) (takeEvent rest s) <;> rfl

/-! ### NOP and illegal words (R164 to R166) -/

theorem exec_nop (s : State) : exec .nop s = .next s := rfl

theorem exec_illegal_idle (opc : BitVec 8) (mbz : BitVec 24) (hp : s.pending = none) :
    exec (.illegal opc mbz) s = .next (recordResult .illegalCommand s) := by
  simp [exec, execIllegal, hp]

theorem statusBecomes_recordResult (k : ResultCode) (s : State) :
    s.statusBecomes (recordResult k s) s.busy k.code :=
  ⟨busy_recordResult k s, result_recordResult k s, reservedBits_withResult k s.status⟩

/-- Settles O5: an idle block performs the write, and the lockout rejects it from a busy one. -/
theorem nopChangesNothing : Obligations.NopChangesNothing := by
  refine ⟨exec_nop, fun s rest hn => ⟨fun hb => ?_, fun hb => ?_⟩⟩
  · exact step_writeCmd_next hn hb (exec_nop _)
  · rw [step_transaction hn]
    exact hostTransaction_error (portCheck_busy rfl hb nofun)

/-- Settles O6: a word other than the three legal ones decodes to an illegal command. -/
theorem illegalWordRecordsIllegalCommand : Obligations.IllegalWordRecordsIllegalCommand := by
  refine ⟨fun opc mbz s hp => ?_, fun s w rest h0 h1 h2 hn hb hp => ?_⟩
  · exact ⟨_, exec_illegal_idle opc mbz hp, rfl, statusBecomes_recordResult .illegalCommand s⟩
  · have hdecode : decodeWord w = .illegal (opcField w) (mbzField w) :=
      decodeWord_of_wf_illegal ((wf_illegal_iff w).2 ⟨h0, h1, h2⟩)
    have hexec : exec (decodeWord w) (takeEvent rest s) =
        .next (recordResult .illegalCommand (takeEvent rest s)) :=
      hdecode ▸ exec_illegal_idle _ _ hp
    have hstatus := statusBecomes_recordResult .illegalCommand (takeEvent rest s)
    rw [busy_takeEvent, hb] at hstatus
    exact ⟨_, step_writeCmd_next hn hb hexec, rfl, hstatus⟩

/-- Settles O9, command word by command word. -/
theorem otherCommandInFlightHasNoEffect : Obligations.OtherCommandInFlightHasNoEffect := by
  intro c i s hp hi
  cases i with
  | nop => exact exec_nop s
  | encode =>
    cases c with
    | encode => exact absurd rfl hi
    | decode => simp [exec, execEncode, hp]
  | decode =>
    cases c with
    | encode => simp [exec, execDecode, hp]
    | decode => exact absurd rfl hi
  | illegal opc mbz => simp [exec, execIllegal, hp]

/-! ### Issue (R161, R163) -/

theorem exec_instr_accepted {c : Command} (hp : s.pending = none) (hc : configOk c s = true) :
    exec c.instr s = .next (accept c s) := by
  rw [exec_instr_idle c hp, issue, if_pos hc]

theorem exec_instr_rejected {c : Command} (hp : s.pending = none) (hc : configOk c s ≠ true) :
    exec c.instr s = .next (recordResult .badConfig s) := by
  rw [exec_instr_idle c hp, issue, if_neg hc]

theorem statusBecomes_accept (c : Command) (s : State) : s.statusBecomes (accept c s) true 0 :=
  ⟨busy_accept c s, result_accept c s, by simp⟩

theorem configOk_iff {c : Command} : configOk c s = true ↔
    s.npix.toNat ≤ s.params.pixCap.toNat ∧
      (c = .encode → s.msglen.toNat ≤ s.params.msgCap.toNat) := by
  cases c <;> simp [configOk]

/-- Settles O7: a busy block lets RegRead(STATUS) through and nothing else. -/
theorem acceptanceSetsBusy : Obligations.AcceptanceSetsBusy := by
  intro c s hp hc
  refine ⟨_, exec_instr_accepted hp hc, rfl, statusBecomes_accept c s, fun x hx hcheck => ?_⟩
  have hidle : (accept c s).busy = false := busy_eq_false_of_portCheck hcheck hx
  simp at hidle

/-- Settles O8: what passes is `configOk`, on which the issue turns. -/
theorem configurationIsCheckedAtIssue : Obligations.ConfigurationIsCheckedAtIssue := by
  intro c s hp passes
  refine ⟨fun hpass => ?_, fun hfail => ?_⟩
  · exact ⟨_, exec_instr_accepted hp (configOk_iff.2 hpass), rfl, busy_accept c s⟩
  · exact ⟨_, exec_instr_rejected hp (mt configOk_iff.1 hfail), rfl,
      statusBecomes_recordResult .badConfig s⟩

end Sys2Proof.Machine
end

section
/-! PROOF. The end of the command in flight (R14, R162): its one step completes it (O10), and that
step comes once the delay is over (O12). -/

namespace Sys2Proof.Machine

variable {s t : State} {c : Command}

/-! ### The completion step (R162) -/

/-- The step of the command in flight ends in `complete`, with a RESULT other than NONE. -/
theorem exec_inFlight_completes (hp : s.pending = some c) (h : exec c.instr s = .next t) :
    ∃ k u, k ≠ .none ∧ t = complete k u := by
  cases c with
  | encode =>
    obtain ⟨_, _, -, -, ⟨-, ht⟩ | ⟨-, _, -, ht⟩⟩ :=
      encodeCompletion_next ((exec_encode_inFlight hp).symm.trans h)
    · exact ⟨.capacityExceeded, _, nofun, ht⟩
    · exact ⟨.ok, _, nofun, ht⟩
  | decode =>
    obtain ⟨_, _, -, -, ⟨-, ht⟩ | ⟨_, _, -, -, -, ht⟩⟩ :=
      decodeCompletion_next ((exec_decode_inFlight hp).symm.trans h)
    · exact ⟨.notFound, _, nofun, ht⟩
    · exact ⟨.ok, _, nofun, ht⟩

/-- What the step of the command in flight leaves of its life (R14, R162). -/
theorem exec_inFlight_ends (hp : s.pending = some c) (h : exec c.instr s = .next t) :
    t.pending = none ∧ t.busy = false ∧ t.result ≠ 0 := by
  obtain ⟨k, u, hk, rfl⟩ := exec_inFlight_completes hp h
  refine ⟨rfl, busy_complete k u, ?_⟩
  rw [result_complete]
  exact mt (ResultCode.code_inj k .none).1 hk

/-- Settles O10, from whose turn a step is and how a completion ends. -/
theorem engineStepEndsTheCommand : Obligations.EngineStepEndsTheCommand := by
  refine ⟨fun c s hp hturn => ?_, fun c s t => exec_inFlight_ends, fun s hp => ?_,
    fun s hp hh => step_over ⟨hh, hp⟩⟩
  · exact step_engine (engineTurn_eq_some.2 ⟨hp, hturn⟩)
  · exact engineTurn_eq_none.2 (.inl hp)

/-! ### Nothing is refused -/

theorem encodeCompletion_ne_refused (s : State) (r : Refusal) :
    encodeCompletion s ≠ .refused r := by
  unfold encodeCompletion
  split
  · nofun
  · split
    · nofun
    · split <;> nofun

theorem decodeCompletion_ne_refused (s : State) (r : Refusal) :
    decodeCompletion s ≠ .refused r := by
  unfold decodeCompletion
  split
  · nofun
  · nofun
  · split <;> nofun

theorem exec_ne_refused (i : Instr) (s : State) (r : Refusal) : exec i s ≠ .refused r := by
  cases hp : s.pending with
  | none =>
    obtain ⟨t, ht⟩ := exec_idle_exists i hp
    simp [ht]
  | some c =>
    by_cases hi : i = c.instr
    · subst hi
      cases c with
      | encode => exact fun h => encodeCompletion_ne_refused s r (exec_encode_inFlight hp ▸ h)
      | decode => exact fun h => decodeCompletion_ne_refused s r (exec_decode_inFlight hp ▸ h)
    · simp [otherCommandInFlightHasNoEffect c i s hp hi]

theorem writeReg_ne_refused (x : Reg) (v : Word) (s : State) (r : Refusal) :
    writeReg x v s ≠ .refused r := by
  cases x with
  | cmd =>
    change thenRespond (.ok 0) (exec (decodeWord v) s) ≠ .refused r
    cases h : exec (decodeWord v) s with
    | next u | fault f => nofun
    | refused q => exact absurd h (exec_ne_refused _ s q)
  | _ => nofun

theorem performTransaction_ne_refused (x : Transaction) (s : State) (r : Refusal) :
    performTransaction x s ≠ .refused r := by
  cases x with
  | regRead a =>
    simp only [performTransaction]
    split <;> nofun
  | regWrite a v =>
    simp only [performTransaction]
    split
    · exact writeReg_ne_refused _ v s r
    · nofun
  | pixRead a | msgRead a =>
    simp only [performTransaction, hostReadByte]
    split <;> nofun
  | pixWrite a v | msgWrite a v =>
    simp only [performTransaction, hostWriteByte]
    split <;> nofun

theorem hostEvent_ne_refused (e : HostEvent) (s : State) (r : Refusal) :
    hostEvent e s ≠ .refused r := by
  cases e with
  | transaction x =>
    change hostTransaction x s ≠ .refused r
    unfold hostTransaction
    split
    · nofun
    · exact performTransaction_ne_refused x s r
  | getmsg =>
    simp only [hostEvent]
    split <;> nofun
  | wait | powerOnReset | warmReset => exact nofun

theorem step_ne_refused (s : State) (r : Refusal) : step s ≠ .refused r := by
  unfold step
  split
  · exact exec_ne_refused _ s r
  · unfold hostTurn
    split
    · nofun
    · exact hostEvent_ne_refused _ _ r

/-! ### The delay (R215) -/

/-- Under UNINIT_POLICY = any value every state of the invariant has a next state (R203). -/
theorem step_exists_of_anyValue (hs : s.Inv) (hany : s.params.uninit = .anyValue) :
    ∃ t, step s = .next t := by
  cases h : step s with
  | next t => exact ⟨t, rfl⟩
  | fault f =>
    obtain ⟨_, _, -, -, -, hpolicy⟩ := step_fault hs h
    simp [hany] at hpolicy
  | refused r => exact absurd h (step_ne_refused s r)

theorem warmReset_pending (s : State) : (warmReset s).pending = none := by
  unfold warmReset
  split <;> rfl

/-- A host event while busy leaves the command in flight and its delay, or is a reset, which ends
the command. -/
theorem HostEffect.pending_of_busy {e : HostEvent} (h : HostEffect e s t) (hb : s.busy = true) :
    t.pending = none ∨ t.pending = s.pending ∧ t.delay = s.delay := by
  cases h with
  | answered => exact .inr ⟨rfl, rfl⟩
  | command _ _ _ hidle | npixWrite _ _ hidle | msglenWrite _ _ hidle | pixWrite _ _ _ hidle
  | msgWrite _ _ _ hidle => simp [hb] at hidle
  | powerOnReset => exact .inl rfl
  | warmReset => exact .inl (warmReset_pending s)

/-- A step with a command in flight ends it or brings it one turn nearer its completion. -/
theorem step_inFlight_next (hs : s.Inv) (hp : s.pending = some c) (h : step s = .next t) :
    t.pending = none ∨ t.pending = some c ∧ t.delay + 1 = s.delay := by
  have hb : s.busy = true := hs.busyIff.2 (by simp [hp])
  rcases step_cases h with ⟨d, hturn, hx⟩ | ⟨e, rest, hturn, hh, hx⟩ | ⟨hover, -⟩
  · exact .inl (exec_inFlight_ends (engineTurn_eq_some.1 hturn).1 hx).1
  · have hdelay : s.delay ≠ 0 := by simpa [hp, hh] using engineTurn_eq_none.1 hturn
    refine ((hostEvent_next hx).pending_of_busy hb).imp_right fun ⟨hpt, hdt⟩ => ⟨hpt.trans hp, ?_⟩
    rw [hdt, takeEvent_delay, Nat.sub_one_add_one hdelay]
  · simp [hover.2] at hp

theorem run_of_step (n : Nat) (h : step s = .next t) :
    Sys2Proof.core.run (n + 1) s = Sys2Proof.core.run n t := by
  have h' : Sys2Proof.core.step s = .next t := h
  simp only [Host.Core.run, h']

/-- Settles O12, by induction on the delay. -/
theorem completionIsReached : Obligations.CompletionIsReached := by
  intro s c hs hany hp
  induction hd : s.delay using Nat.strong_induction_on generalizing s with
  | _ d ih =>
    obtain ⟨t, ht⟩ := step_exists_of_anyValue hs hany
    rcases step_inFlight_next hs hp ht with hend | ⟨hpt, hdt⟩
    · exact ⟨1, t, by omega, run_of_step 0 ht, hend⟩
    · have hanyt : t.params.uninit = .anyValue := by rw [parametersNeverChange s t ht, hany]
      obtain ⟨n, u, hn, hrun, hu⟩ :=
        ih t.delay (by omega) t (stepKeepsTheInvariant s t hs ht) hanyt hpt rfl
      exact ⟨n + 1, u, by omega, (run_of_step n ht).trans hrun, hu⟩

end Sys2Proof.Machine
end

section
/-! PROOF. How long a command takes does not show to a host that waits for it (R167, R168, O60):
turns of the host commute with the completion step, and polls leave no trace in the observation. -/

namespace Sys2Proof.Machine

/-! ### Accesses to a memory -/

/-- A change of the state that no access to a memory sees, and that changes nothing an access
does. -/
structure Unseen (f : State → State) : Prop where
  uninit (s : State) : (f s).params.uninit = s.params.uninit
  extent (s : State) (sp : Space) : (f s).extent sp = s.extent sp
  draws (s : State) : (f s).draws = s.draws
  mem (s : State) (sp : Space) : (f s).mem sp = s.mem sp
  setDraws (s : State) (n : Nat) : { f s with draws := n } = f { s with draws := n }
  withMem (s : State) (sp : Space) (m : Memory) : (f s).withMem sp m = f (s.withMem sp m)

namespace Unseen

variable {f : State → State} (hf : Unseen f) {s : State}
include hf

theorem memRead_eq (sp : Space) (a : Nat) :
    memRead sp a (f s) = (memRead sp a s).map (Prod.map id f) := by
  simp only [memRead, hf.extent, hf.mem, hf.uninit, hf.draws]
  split
  · split
    · rfl
    · split
      · rfl
      · exact congrArg (fun u => Except.ok (_, u)) (hf.setDraws s _)
  · rfl

theorem memWrite_eq (sp : Space) (a : Nat) (v : Byte) :
    memWrite sp a v (f s) = (memWrite sp a v s).map f := by
  simp only [memWrite, hf.extent, hf.mem, hf.withMem]
  split <;> rfl

theorem readBytes_eq (sp : Space) (n a : Nat) :
    readBytes sp n a (f s) = (readBytes sp n a s).map (Prod.map id f) := by
  induction n generalizing a s with
  | zero => rfl
  | succ n ih =>
    simp only [readBytes, hf.memRead_eq]
    cases memRead sp a s with
    | error e => rfl
    | ok p =>
      simp only [Except.map, Prod.map, ih]
      cases readBytes sp n (a + 1) p.2 <;> rfl

theorem writeBytes_eq (sp : Space) (bs : List Byte) (a : Nat) :
    writeBytes sp bs a (f s) = (writeBytes sp bs a s).map f := by
  induction bs generalizing a s with
  | nil => rfl
  | cons v vs ih =>
    simp only [writeBytes, hf.memWrite_eq]
    cases memWrite sp a v s with
    | error e => rfl
    | ok u => exact ih (a + 1)

theorem packBits_eq (bs : List Byte) (n i : Nat) :
    packBits bs n i (f s) = (packBits bs n i s).map f := by
  induction n generalizing i s with
  | zero => rfl
  | succ n ih =>
    simp only [packBits, hf.memRead_eq]
    cases memRead .pix i s with
    | error e => rfl
    | ok p =>
      simp only [Except.map, Prod.map, id, hf.memWrite_eq]
      cases memWrite .pix i (replaceLsb p.1 (streamBit bs i)) p.2 with
      | error e => rfl
      | ok u => exact ih (i + 1)

theorem shiftInBits_eq (n a : Nat) (u : Byte) :
    shiftInBits n a u (f s) = (shiftInBits n a u s).map (Prod.map id f) := by
  induction n generalizing a u s with
  | zero => rfl
  | succ n ih =>
    simp only [shiftInBits, hf.memRead_eq]
    cases memRead .pix a s with
    | error e => rfl
    | ok p => exact ih (a + 1) _

theorem scanUnits_eq (n k : Nat) (str : List Byte) :
    scanUnits n k str (f s) = (scanUnits n k str s).map (Prod.map id f) := by
  induction n generalizing k str s with
  | zero => rfl
  | succ n ih =>
    simp only [scanUnits, readUnit, hf.shiftInBits_eq]
    cases shiftInBits 8 (8 * k) 0 s with
    | error e => rfl
    | ok p =>
      simp only [Except.map, Prod.map, id, ih]
      split <;> rfl

end Unseen

/-! ### Turns of the host -/

/-- `s` with `d` turns of the host left before the completion, once the host has received `rs`. -/
def State.afterTurns (s : State) (d : Nat) (rs : List Received) : State :=
  { s with delay := d, responses := rs }

variable {s t : State} {c : Command} {rest : List HostEvent} (d : Nat) (rs : List Received)

theorem unseen_afterTurns : Unseen (·.afterTurns d rs) where
  uninit _ := rfl
  extent _ sp := by cases sp <;> rfl
  draws _ := rfl
  mem _ sp := by cases sp <;> rfl
  setDraws _ _ := rfl
  withMem _ sp _ := by cases sp <;> rfl

theorem encodeCompletion_afterTurns (h : encodeCompletion s = .next t) :
    encodeCompletion (s.afterTurns d rs) = .next (t.afterTurns 0 rs) := by
  have hf := unseen_afterTurns d rs
  obtain ⟨m, s1, hread, -, hend⟩ := encodeCompletion_next h
  have hread' : readPayload (s.afterTurns d rs) = .ok (m, s1.afterTurns d rs) := by
    have := hf.readBytes_eq (s := s) .msg s.payloadLen 0
    rwa [hread] at this
  simp only [encodeCompletion, hread']
  rcases hend with ⟨hbig, rfl⟩ | ⟨hfits, s2, hpack, rfl⟩
  · exact if_pos hbig
  · have hpack' : packBits (framed m) s.streamLen 0 (recordMaxchars (s1.afterTurns d rs)) =
        .ok (s2.afterTurns d rs) := by
      have := hf.packBits_eq (s := recordMaxchars s1) (framed m) s.streamLen 0
      rwa [hpack] at this
    have hlen : (s.afterTurns d rs).streamLen = s.streamLen := rfl
    refine (if_neg (Nat.not_lt.2 hfits)).trans ?_
    rw [hlen, hpack']
    rfl

theorem decodeCompletion_afterTurns (h : decodeCompletion s = .next t) :
    decodeCompletion (s.afterTurns d rs) = .next (t.afterTurns 0 rs) := by
  have hf := unseen_afterTurns d rs
  obtain ⟨r, s1, hscan, -, hend⟩ := decodeCompletion_next h
  have hscan' : scanUnits (s.afterTurns d rs).units 0 [] (s.afterTurns d rs) =
      .ok (r, s1.afterTurns d rs) := by
    have := hf.scanUnits_eq (s := s) s.units 0 []
    rwa [hscan] at this
  simp only [decodeCompletion, hscan']
  rcases hend with ⟨rfl, rfl⟩ | ⟨m, s2, rfl, -, hwrite, rfl⟩
  · rfl
  · have hwrite' : writeBytes .msg m 0 (scratchMessage (s1.afterTurns d rs)) =
        .ok (s2.afterTurns d rs) := by
      have := hf.writeBytes_eq (s := scratchMessage s1) .msg m 0
      rwa [hwrite] at this
    simp only [hwrite']
    rfl

/-- Turns of the host change nothing of what the completion step does, and it ends the delay. -/
theorem exec_afterTurns (hp : s.pending = some c) (h : exec c.instr s = .next t) :
    exec c.instr (s.afterTurns d rs) = .next (t.afterTurns 0 rs) := by
  have hp' : (s.afterTurns d rs).pending = some c := hp
  cases c with
  | encode =>
    refine (exec_encode_inFlight hp').trans (encodeCompletion_afterTurns d rs ?_)
    exact (exec_encode_inFlight hp).symm.trans h
  | decode =>
    refine (exec_decode_inFlight hp').trans (decodeCompletion_afterTurns d rs ?_)
    exact (exec_decode_inFlight hp).symm.trans h

/-! ### A run of polls -/

theorem ExecEffect.host {i : Instr} (h : ExecEffect i s t) : t.host = s.host := by
  cases h <;> rfl

/-- A poll of `wait` that is repeated (R92). -/
def State.poll (s : State) : Received := ⟨.ok s.status, true⟩

theorem step_poll (hb : s.busy = true) (hh : s.host = .wait :: rest) :
    step (s.afterTurns (d + 1) rs) = .next (s.afterTurns d (rs ++ [s.poll])) := by
  have hturn : engineTurn (s.afterTurns (d + 1) rs) = none :=
    engineTurn_eq_none.2 (.inr ⟨nofun, by simp [State.afterTurns, hh]⟩)
  rw [step_host hturn hh, hostEvent_wait_busy (s := takeEvent rest (s.afterTurns (d + 1) rs)) hb]
  cases s
  cases hh
  rfl

/-- The host polls until the delay is over. -/
theorem run_polls (n : Nat) (hb : s.busy = true) (hh : s.host = .wait :: rest) :
    Sys2Proof.core.run (d + n) (s.afterTurns d rs) =
      Sys2Proof.core.run n (s.afterTurns 0 (rs ++ List.replicate d s.poll)) := by
  induction d generalizing rs with
  | zero => simp
  | succ d ih =>
    rw [Nat.succ_add_eq_add_succ, Nat.add_succ, run_of_step (d + n) (step_poll d rs hb hh), ih,
      List.append_assoc, List.singleton_append, ← List.replicate_succ]

/-- What the completion `t` and the last poll leave where the host had received `rs` before. -/
def State.waitEnd (t : State) (rest : List HostEvent) (rs : List Received) : State :=
  respond (.ok t.status) (takeEvent rest (t.afterTurns 0 rs))

/-- The engine's step and the poll that reads BUSY = 0. -/
theorem run_waitEnd (hp : s.pending = some c) (hh : s.host = .wait :: rest)
    (h : exec c.instr s = .next t) :
    Sys2Proof.core.run 2 (s.afterTurns 0 rs) = .next (t.waitEnd rest rs) := by
  obtain ⟨hpt, hbt, -⟩ := exec_inFlight_ends hp h
  have hht : t.host = .wait :: rest := (exec_next h).host.trans hh
  have hengine : step (s.afterTurns 0 rs) = .next (t.afterTurns 0 rs) :=
    (step_engine (s := s.afterTurns 0 rs) (engineTurn_eq_some.2 ⟨hp, .inl rfl⟩)).trans
      (exec_afterTurns 0 rs hp h)
  have hlast : step (t.afterTurns 0 rs) = .next (t.waitEnd rest rs) :=
    (step_host (s := t.afterTurns 0 rs) (engineTurn_eq_none.2 (.inl hpt)) hht).trans
      (hostEvent_wait_idle (s := takeEvent rest (t.afterTurns 0 rs)) hbt)
  rw [run_of_step 1 hengine, run_of_step 0 hlast]
  rfl

/-- The polls that were repeated are not observed (R168). -/
theorem observedResponses_waitEnd (s t : State) :
    (t.waitEnd rest (rs ++ List.replicate d s.poll)).observedResponses =
      (t.waitEnd rest rs).observedResponses := by
  simp [State.observedResponses, State.waitEnd, State.afterTurns, State.poll]

/-- Settles O60: both runs end in `waitEnd` of the one completion, with other numbers of polls. -/
theorem latencyIsNotObserved : Obligations.LatencyIsNotObserved := by
  intro s t c rest d d' hb hp hh h
  have hpt := (exec_inFlight_ends hp h).1
  have hrun (d : Nat) : Sys2Proof.core.run (d + 2) { s with delay := d } =
      .next (t.waitEnd rest (s.responses ++ List.replicate d s.poll)) :=
    (run_polls d s.responses 2 hb hh).trans (run_waitEnd _ hp hh h)
  refine ⟨_, _, _, _, hrun d, hrun d',
    ⟨fun r => by cases r <;> rfl, fun _ _ => rfl, fun _ _ => rfl, ?_⟩, hpt, hpt, rfl, rfl⟩
  rw [observedResponses_waitEnd, observedResponses_waitEnd]

end Sys2Proof.Machine
end

section
/-! PROOF. What a failure changes, outcome by outcome (R179, O59). -/

namespace Sys2Proof.Machine

variable {s t : State}

theorem statusBecomes_self (s : State) : s.statusBecomes s s.busy s.result := ⟨rfl, rfl, rfl⟩

/-- An idle command word that leaves a RESULT other than NONE was not accepted, so it changed no more
than RESULT (R161, R163, R166). -/
theorem exec_idle_frame {i : Instr} (hp : s.pending = none) (h : exec i s = .next t)
    (hr : t.result ≠ 0) :
    t = { s with status := t.status } ∧ s.statusBecomes t s.busy t.result := by
  cases exec_next h with
  | unchanged => exact ⟨rfl, statusBecomes_self s⟩
  | rejected k =>
    rw [result_recordResult]
    exact ⟨rfl, statusBecomes_recordResult k s⟩
  | accepted c => exact absurd (result_accept c s) hr
  | encoded _ _ _ _ hpe => exact absurd (hp.symm.trans hpe) nofun
  | decoded _ _ _ _ _ hpd => exact absurd (hp.symm.trans hpd) nofun

/-- A completion of ENCODE that fails found the carrier too small, and wrote no PIXMEM byte (R109). -/
theorem encodeCompletion_failure_frame (h : encodeCompletion s = .next t) (hr : t.result ≠ 1) :
    t = { s with status := t.status, maxchars := t.maxchars, pending := none, delay := 0,
                 draws := t.draws } ∧ s.statusBecomes t false 3 := by
  obtain ⟨_, s1, -, hs1, ⟨-, rfl⟩ | ⟨-, u, -, rfl⟩⟩ := encodeCompletion_next h
  · rw [hs1]
    exact ⟨rfl, statusBecomes_complete .capacityExceeded rfl⟩
  · exact absurd (result_complete .ok u) hr

/-- A completion of DECODE that fails found no match, and wrote no PIXMEM byte (R136, R138). -/
theorem decodeCompletion_failure_frame (h : decodeCompletion s = .next t) (hr : t.result ≠ 1) :
    t = { s with status := t.status, reslen := 0, msg := t.msg, pending := none, delay := 0,
                 draws := t.draws } ∧ s.statusBecomes t false 2 := by
  obtain ⟨_, s1, -, hs1, ⟨-, rfl⟩ | ⟨m, u, -, -, -, rfl⟩⟩ := decodeCompletion_next h
  · rw [hs1]
    exact ⟨rfl, statusBecomes_complete .notFound rfl⟩
  · exact absurd (result_complete .ok (recordReslen m.length u)) hr

/-- Settles O59: RESULT tells which of its ends the command came to, and that end has the frame. -/
theorem failuresChangeOnlyWhatIsListed : Obligations.FailuresChangeOnlyWhatIsListed := by
  refine ⟨fun i s t hp h hr => exec_idle_frame hp h fun h0 => ?_, fun s t hp h => ?_,
    fun s t hp h => ?_⟩
  · rw [h0] at hr
    exact absurd hr (by decide)
  · exact encodeCompletion_failure_frame ((exec_encode_inFlight hp).symm.trans h)
  · exact decodeCompletion_failure_frame ((exec_decode_inFlight hp).symm.trans h)

end Sys2Proof.Machine
end

section
/-! PROOF. Reset (R200 to R202): what the two resets leave of the registers and of the memories
(O47 to O49), and the invariant in the state they start from (O50). -/

namespace Sys2Proof.Machine

variable {s : State}

/-! ### The state after reset (R10, R200) -/

/-- Settles O47: every field of `State.reset` is written out in its definition. -/
theorem resetStateHoldsTheResetValues : Obligations.ResetStateHoldsTheResetValues :=
  ⟨rfl, rfl, rfl, rfl, rfl, rfl, rfl, rfl, rfl, fun a => ⟨Memory.blank_get a, Memory.blank_get a⟩⟩

/-- Settles O50, field by field of the invariant. -/
theorem resetMeetsTheInvariant : Obligations.ResetMeetsTheInvariant where
  params := Config.params_ok
  pixWf := Memory.wf_blank
  pixBelow := Memory.below_blank _
  pixFill := rfl
  msgWf := Memory.wf_blank
  msgBelow := Memory.below_blank _
  reserved := by decide
  resultCode := ⟨.none, by decide⟩
  busyIff := by decide
  busyResult := by decide
  accepted := nofun
  reslen := Nat.zero_le _
  maxchars := Nat.zero_le _

/-! ### The two reset events (R201, R202) -/

/-- Settles O48: the event is `powerOnReset`. -/
theorem powerOnResetClearsTheBlock : Obligations.PowerOnResetClearsTheBlock := by
  intro s rest hn
  exact ⟨powerOnReset (takeEvent rest s), step_host hn.1 hn.2, rfl, rfl, rfl, rfl, rfl, rfl, rfl,
    fun a => ⟨Memory.blank_get a, Memory.blank_get a⟩⟩

/-- The frame of a warm reset: but for the memories it resets what both resets do. -/
theorem warmReset_frame (s : State) :
    warmReset s = { resetRegisters s with pix := (warmReset s).pix, msg := (warmReset s).msg } := by
  unfold warmReset
  split <;> rfl

theorem warmReset_idle (hp : s.pending = none) : warmReset s = resetRegisters s := by
  simp [warmReset, hp]

theorem warmReset_encode (hp : s.pending = some .encode) :
    warmReset s = { resetRegisters s with pix := s.pix.forgetBelow (3 * s.npix.toNat) } := by
  simp [warmReset, hp]

theorem warmReset_decode (hp : s.pending = some .decode) :
    warmReset s = { resetRegisters s with msg := Memory.blank } := by
  simp [warmReset, hp]

/-- Settles O49, by the command in flight. -/
theorem warmResetKeepsTheMemories : Obligations.WarmResetKeepsTheMemories := by
  intro s rest hn hfill
  refine ⟨warmReset (takeEvent rest s), step_host hn.1 hn.2, ?_⟩
  rw [warmReset_frame]
  refine ⟨rfl, rfl, rfl, rfl, rfl, rfl, rfl, fun hp => ?_, fun hp => ?_, fun hp => ?_⟩
  · rw [warmReset_idle (s := takeEvent rest s) hp]
    exact ⟨rfl, rfl⟩
  · rw [warmReset_encode (s := takeEvent rest s) hp]
    refine ⟨rfl, fun a => (Memory.get_forgetBelow hfill _ a).trans ?_⟩
    rw [← ite_not]
    simp only [Nat.not_le, takeEvent_npix]
  · rw [warmReset_decode (s := takeEvent rest s) hp]
    exact ⟨rfl, Memory.blank_get⟩

end Sys2Proof.Machine
end

section
/-! PROOF. Reads of bytes never written (R203): by the host (O40), by ENCODE (O21), and that they
are the only stops of a step (O53). -/

namespace Sys2Proof.Machine

variable {s t s1 : State} {sp : Space} {a b : Nat}

/-- Settles O53: a step is not refused, and faults only by R203. -/
theorem stepStopsOnlyAtUninitialisedReads : Obligations.StepStopsOnlyAtUninitialisedReads := by
  refine ⟨step_ne_refused, fun s hs => ?_⟩
  cases h : step s with
  | next t => exact .inl ⟨t, rfl⟩
  | fault f =>
    obtain ⟨sp, a, rfl, ha, hnone, hpolicy⟩ := step_fault hs h
    exact .inr ⟨sp, a, rfl, hpolicy, hnone, ha⟩
  | refused r => exact absurd h (step_ne_refused s r)

/-! ### The host (R52, R53) -/

@[simp] theorem mem_takeEvent (rest : List HostEvent) (s : State) (sp : Space) :
    (takeEvent rest s).mem sp = s.mem sp := by
  cases sp <;> rfl

@[simp] theorem extent_takeEvent (rest : List HostEvent) (s : State) (sp : Space) :
    (takeEvent rest s).extent sp = s.extent sp := by
  cases sp <;> rfl

theorem hostReadByte_uninit_fault (hp : s.params.uninit = .fault) (ha : a < s.extent sp)
    (h : (s.mem sp).get a = none) :
    hostReadByte sp a s = .fault (.uninitialisedRead sp a) := by
  simp [hostReadByte, memRead_fault hp ha h]

theorem hostReadByte_uninit_anyValue (hp : s.params.uninit = .anyValue) (ha : a < s.extent sp)
    (h : (s.mem sp).get a = none) :
    hostReadByte sp a s = .next (respond (.ok ((Config.uninitByte s.draws).setWidth 32))
      { s with draws := s.draws + 1 }) := by
  simp [hostReadByte, memRead_anyValue hp ha h]

/-- Settles O40: an idle block performs the read, which follows the policy. -/
theorem hostReadOfUninitialisedByte : Obligations.HostReadOfUninitialisedByte := by
  intro s sp a rest hb ha hnone hn
  have hstep : step s = hostReadByte sp a.toNat (takeEvent rest s) := by
    cases sp <;> exact step_idle hn hb (decide_eq_true ha) rfl
  rw [hstep]
  refine ⟨fun hp => ?_, fun hp => ?_⟩
  · exact hostReadByte_uninit_fault hp (by simpa using ha) (by simpa using hnone)
  · exact ⟨_, _, hostReadByte_uninit_anyValue hp (by simpa using ha) (by simpa using hnone)⟩

/-! ### The first byte never written, under UNINIT_POLICY = fault -/

/-- A run of reads faults at the first byte of it that was never written. -/
theorem readBytes_firstUninit (hp : s.params.uninit = .fault) {n : Nat} (hab : a ≤ b)
    (hb : b < a + n) (hx : b < s.extent sp)
    (hinit : ∀ c, a ≤ c → c < b → (s.mem sp).get c ≠ none) (hnone : (s.mem sp).get b = none) :
    readBytes sp n a s = .error (.uninitialisedRead sp b) := by
  induction n generalizing a with
  | zero => omega
  | succ n ih =>
    rcases hab.eq_or_lt with rfl | hlt
    · simp only [readBytes, memRead_fault hp hx hnone]
    · have hread := memRead_of_get (hlt.trans hx) (Memory.get_eq_byte (hinit a le_rfl hlt))
      simp only [readBytes, hread,
        ih hlt (by omega) fun c hac hcb => hinit c (Nat.le_of_succ_le hac) hcb]

/-- The bit cursor faults at the first channel of its range that was never written. -/
theorem packBits_firstUninit {f : List Byte} (hp : s.params.uninit = .fault) {n : Nat}
    (hab : a ≤ b) (hb : b < a + n) (hx : b < s.extent .pix)
    (hinit : ∀ c, a ≤ c → c < b → s.pix.get c ≠ none) (hnone : s.pix.get b = none) :
    packBits f n a s = .error (.uninitialisedRead .pix b) := by
  induction n generalizing a s with
  | zero => omega
  | succ n ih =>
    rcases hab.eq_or_lt with rfl | hlt
    · simp only [packBits, memRead_fault (sp := .pix) hp hx hnone]
    · have ha : a < s.extent .pix := hlt.trans hx
      have hread := memRead_of_get (sp := .pix) ha (Memory.get_eq_byte (hinit a le_rfl hlt))
      simp only [packBits, hread, memWrite_of_lt ha]
      refine ih (by simpa using hp) hlt (by omega) (by simpa using hx) (fun c hac hcb => ?_) ?_
      · exact (Memory.get_set_ne _ _ (by omega)).trans_ne (hinit c (by omega) hcb)
      · exact (Memory.get_set_ne _ _ hlt.ne').trans hnone

theorem encodeCompletion_payloadFault (hp : s.params.uninit = .fault)
    (hl : s.msglen.toNat ≤ s.params.msgCap.toNat) (ha : a < s.msglen.toNat)
    (hinit : s.msg.initialised a) (hnone : s.msg.get a = none) :
    encodeCompletion s = .fault (.uninitialisedRead .msg a) := by
  have hread : readPayload s = .error (.uninitialisedRead .msg a) :=
    readBytes_firstUninit hp (Nat.zero_le a) (by rwa [Nat.zero_add]) (ha.trans_le hl)
      (fun c _ hc => hinit c hc) hnone
  simp only [encodeCompletion, hread]

theorem encodeCompletion_carrierFault (hp : s.params.uninit = .fault)
    (hn : s.npix.toNat ≤ s.params.pixCap.toNat) (hl : s.msglen.toNat ≤ s.params.msgCap.toNat)
    (hfits : s.streamLen ≤ s.capacity) (hm : s.msg.initialised s.msglen.toNat)
    (ha : a < s.streamLen) (hinit : s.pix.initialised a) (hnone : s.pix.get a = none) :
    encodeCompletion s = .fault (.uninitialisedRead .pix a) := by
  have hx : a < s.extent .pix := ha.trans_le (hfits.trans (Nat.mul_le_mul_left 3 hn))
  have hpack (f : List Byte) : packBits f s.streamLen 0 (recordMaxchars s) =
      .error (.uninitialisedRead .pix a) :=
    packBits_firstUninit (s := recordMaxchars s) hp (Nat.zero_le a)
      (ha.trans_eq (Nat.zero_add _).symm) hx (fun c _ hc => hinit c hc) hnone
  simp only [encodeCompletion, readPayload_of_initialised hl hm, Nat.not_lt.2 hfits, if_false,
    hpack]

/-! ### ENCODE under UNINIT_POLICY = any value -/

/-- No read of ENCODE can fault, so it completes. -/
theorem encodeCompletion_anyValue (hp : s.params.uninit = .anyValue)
    (hn : s.npix.toNat ≤ s.params.pixCap.toNat) (hl : s.msglen.toNat ≤ s.params.msgCap.toNat) :
    ∃ t, encodeCompletion s = .next t := by
  obtain ⟨m, s1, hread⟩ : ∃ m s1, readPayload s = .ok (m, s1) :=
    readBytes_anyValue hp _ 0 (by rwa [Nat.zero_add])
  by_cases hfits : s.streamLen ≤ s.capacity
  · have hs1 : s1 = { s with draws := s1.draws } := (readBytes_ok hread).1
    obtain ⟨u, hpack⟩ : ∃ u, packBits (framed m) s.streamLen 0 (recordMaxchars s1) = .ok u := by
      rw [hs1]
      refine packBits_exists ?_ (.inl hp)
      rw [Nat.zero_add]
      exact hfits.trans (Nat.mul_le_mul_left 3 hn)
    refine ⟨complete .ok u, ?_⟩
    simp only [encodeCompletion, hread, Nat.not_lt.2 hfits, if_false, hpack]
  · exact ⟨_, encodeCompletion_tooLong hread (Nat.not_le.1 hfits)⟩

/-- Two payloads of one length have the same bit in their framed messages wherever it comes from
DELIM or from a byte they agree on (R100, R101). -/
theorem streamBit_framed_congr {l l' : List Byte} (hlen : l.length = l'.length)
    (h : l.length ≤ a / 8 ∨ l[a / 8]? = l'[a / 8]?) :
    streamBit (framed l) a = streamBit (framed l') a := by
  have hbyte : (framed l)[a / 8]? = (framed l')[a / 8]? := by
    simp only [framed, List.getElem?_append, hlen]
    rcases h with hle | heq
    · rw [if_neg (by omega), if_neg (by omega)]
    · rw [heq]
  simp only [streamBit, List.getD_eq_getElem?_getD, hbyte]

/-- What ENCODE reads as the payload gives the bits that the bytes holding a value spell. -/
theorem streamBit_readPayload {m : List Byte} (h : readPayload s = .ok (m, s1))
    (ha : s.msglen.toNat ≤ a / 8 ∨ s.msg.get (a / 8) ≠ none) :
    streamBit (framed m) a = streamBit (framed (s.msg.prefixBytes s.msglen.toNat)) a := by
  have hlen : m.length = s.msglen.toNat := (readBytes_ok h).2.1
  refine streamBit_framed_congr (by simpa using hlen) ?_
  rw [hlen]
  by_cases hlt : a / 8 < s.msglen.toNat
  · have hget := Memory.get_eq_byte (ha.resolve_left (Nat.not_le.2 hlt))
    refine .inr ((readBytes_getElem? h hlt (by rw [Nat.zero_add]; exact hget)).trans ?_)
    simp [Memory.prefixBytes, hlt]
  · exact .inl (Nat.not_lt.1 hlt)

/-- The LSBs after a completion of ENCODE, whatever the carrier held (R106, R107, R109). -/
theorem encodeCompletion_lsb (h : encodeCompletion s = .next t) :
    ∃ m s1, readPayload s = .ok (m, s1) ∧ ∀ a,
      (t.result = 1 ∧ a < s.streamLen →
        ∃ v, t.pix.get a = some v ∧ v.getLsbD 0 = streamBit (framed m) a) ∧
      (¬ (t.result = 1 ∧ a < s.streamLen) → t.pix.get a = s.pix.get a) := by
  obtain ⟨m, s1, hread, hs1, ⟨-, rfl⟩ | ⟨-, u, hpack, rfl⟩⟩ := encodeCompletion_next h
  · refine ⟨m, s1, hread, fun a => ⟨fun ⟨hok, _⟩ => ?_, fun _ => ?_⟩⟩
    · rw [result_complete] at hok
      exact absurd hok (by decide)
    · rw [hs1]
      rfl
  · obtain ⟨-, -, -, -, -, hout, hin, -⟩ := packBits_ok hpack
    refine ⟨m, s1, hread, fun a => ⟨fun ⟨_, ha⟩ => ?_, fun ha => ?_⟩⟩
    · obtain ⟨ch, hch, -⟩ := hin a (Nat.zero_le a) (by omega)
      exact ⟨_, hch, replaceLsb_lsb ch _⟩
    · have hge : s.streamLen ≤ a := Nat.not_lt.1 fun hlt => ha ⟨result_complete .ok u, hlt⟩
      rw [complete_pix, hout a (by omega), hs1]
      rfl

/-- Settles O21: the completion exists under any value and writes the bits of
`encodeCompletion_lsb`; under fault it stops at the first byte of either memory that was never
written. -/
theorem encodeOverUninitialisedBytes : Obligations.EncodeOverUninitialisedBytes := by
  refine ⟨fun s hp hany hn hl => ?_, fun s a hp hfault hl ha hinit hnone => ?_,
    fun s a hp hfault hn hl hfits hm ha hinit hnone => ?_⟩
  · obtain ⟨t, h⟩ := encodeCompletion_anyValue hany hn hl
    have hexec := (exec_encode_inFlight hp).trans h
    obtain ⟨m, s1, hread, hlsb⟩ := encodeCompletion_lsb h
    refine ⟨t, hexec, (exec_inFlight_ends hp hexec).1, ?_, fun a => ?_⟩
    · split_ifs with hfits
      · exact (result_encodeCompletion h).2 hfits
      · obtain ⟨-, ⟨-, hresult, -⟩, -⟩ :=
          encodeTooLongLeavesPixmem.2 s t hp hexec (Nat.not_le.1 hfits)
        exact hresult
    · split_ifs with ha
      · obtain ⟨v, hv, hbit⟩ := (hlsb a).1 ha
        exact ⟨v, hv, fun hold => hbit.trans (streamBit_readPayload hread hold)⟩
      · exact (hlsb a).2 ha
  · exact (exec_encode_inFlight hp).trans (encodeCompletion_payloadFault hfault hl ha hinit hnone)
  · exact (exec_encode_inFlight hp).trans
      (encodeCompletion_carrierFault hfault hn hl hfits hm ha hinit hnone)

end Sys2Proof.Machine
end

section
/-! PROOF. The round trip with another NPIX at DECODE (R216, O31). -/

namespace Sys2Proof.Machine

variable {s : State}

/-- A byte of the framed message before byte L is the byte of the payload (R87). -/
theorem getElem?_frame {i : Nat} (hm : s.msg.initialised s.msglen.toNat) (hi : i < s.msglen.toNat) :
    s.frame[i]? = s.msg.get i := by
  rw [State.frame, framed, List.getElem?_append_left (by simpa using hi),
    Memory.get_eq_byte (hm i hi)]
  simp [Memory.prefixBytes, hi]

/-- Under the round-trip condition the delimiter first stands at byte L of the framed message. -/
theorem firstDelim_frame
    (h : ¬ delim <:+: s.msg.prefixBytes s.msglen.toNat ++ delim.take 8) :
    FirstDelim s.frame s.msglen.toNat := by
  obtain ⟨p, hp, hfirst⟩ := exists_firstDelim_framed (s.msg.prefixBytes s.msglen.toNat)
  rw [isInfix_take_iff hfirst] at h
  rw [Memory.length_prefixBytes] at hp h
  obtain rfl : p = s.msglen.toNat := by omega
  exact hfirst

/-- Settles O31: the units ENCODE left spell the framed message whatever NPIX is, and DECODE reads
enough of them. -/
theorem roundTripWithAnotherNpix : Obligations.RoundTripWithAnotherNpix := by
  intro s n hp hok hn hl hfits hm hinit hcond hn' hunits'
  obtain ⟨a, b, ha, hb, -, hidle, hparams, -, hinit', hunits⟩ :=
    encode_accepted_completes ⟨hp, hn, hl, hfits, hm, hinit⟩
  obtain ⟨c, d, hc, hd, hresult, hreslen, hget⟩ :=
    decode_accepted_completes (s := { b with npix := n }) hidle (by rwa [hparams])
      (by rwa [hparams]) (by rwa [State.length_frame]) hinit' hunits (firstDelim_frame hcond)
  exact ⟨a, b, c, d, ha, hb, hc, hd, hresult, BitVec.eq_of_toNat_eq hreslen, fun i hi =>
    (hget i hi).trans (getElem?_frame hm hi)⟩

end Sys2Proof.Machine
end
